-- ==== Sys2Proof/Word.lean ====
section
/-! DEFINITION. The words of the block: bytes, buffers, u32, the f32 word, the 18-bit code, the 3-bit type code.
Widths are those of 00_scope.md R5, R7 and 10_state.md R20. -/

namespace Sys2Proof

/-- A buffer byte (BYTE_BITS = 8, R5). -/
abbrev Byte := BitVec 8

/-- A buffer value: a fixed-length sequence of bytes, byte 0 first (10_state.md R17). -/
abbrev Buffer := List Byte

/-- A `u32` (R7): the value of a bit window (MAX_FIELD_W = 32, R5). -/
abbrev Word := BitVec 32

/-- An `f32`, carried as its IEEE 754 binary32 word (30_encoding.md R64). UNVERIFIED: the spec takes the layout from general
knowledge (log entry 11). -/
abbrev F32 := BitVec 32

/-- A Minifloat18 code (MF_BITS = 18, R5, R62). -/
abbrev Code18 := BitVec 18

/-- A 3-bit packet type code (30_encoding.md R63). -/
abbrev TypeCode := BitVec 3

/-- A display name: a byte string (43_packetframe.md R166, R168). -/
abbrev Name := List Byte

/-- `v[hi:lo]` of 00_scope.md R8: bits `lo` to `hi` of `v` as an unsigned integer, bit `lo` becoming bit 0. -/
abbrev slice {n : Nat} (v : BitVec n) (hi lo : Nat) : Nat := v.toNat / 2 ^ lo % 2 ^ (hi - lo + 1)

end Sys2Proof
end

