-- ==== Sys2Proof/Config.lean ====
section
/-! DEFINITION. What an instance fixes before its first operation (00_scope.md R6, 70_reset_and_hazards.md R222), and the one
free value of the spec (ENC_NAN). -/

namespace Sys2Proof

/-- The parameters of an instance (R6). `none` is "unbounded in the model", R6's default for the four port limits. They are read
by operations and written by none (10_state.md R15, R22). -/
structure Config where
  /-- TYPE_TABLE: pairs of a type code and its display name (43_packetframe.md R168). -/
  typeTable : List (TypeCode × Name)
  /-- L_MAX: the longest buffer, in bytes, the buffer port accepts. -/
  lMax      : Option Nat
  /-- IDX_W: the width in bits of a bit position, offset, width or cursor port. -/
  idxW      : Option Nat
  /-- SHAPE_MAX: the longest shape an instance accepts. -/
  shapeMax  : Option Nat
  /-- NAME_MAX: the longest name the STRINGTOTYPE port accepts. -/
  nameMax   : Option Nat
  deriving DecidableEq, Repr

/-- TYPE_STATE: the code of the variant `State` (R5, R63). -/
def Config.stateCode : TypeCode := 2

/-- The display name of `State`: the five ASCII bytes S t a t e (43_packetframe.md R168). UNVERIFIED: the spec's
decision D23 (log entry 13). -/
def Config.stateName : Name := [0x53, 0x74, 0x61, 0x74, 0x65]

/-- R6's defaults: TYPE_TABLE = [(2, "State")], every port unbounded. DESIGN CHOICE: IDX_W too (log entry 17). -/
def Config.default : Config :=
  { typeTable := [(Config.stateCode, Config.stateName)], lMax := none, idxW := none, shapeMax := none, nameMax := none }

/-- What R168 asks of TYPE_TABLE: at most 8 pairs, codes distinct, names distinct and non-empty, (2, "State") among them. -/
def Config.wf (c : Config) : Bool :=
  c.typeTable.length ≤ 8
  && decide (c.typeTable.map Prod.fst).Nodup
  && decide (c.typeTable.map Prod.snd).Nodup
  && c.typeTable.all (fun e => e.2 != [])
  && c.typeTable.contains (Config.stateCode, Config.stateName)

/-- ENC_NAN (42_minifloat18.md R141): the code ENCODEFLOAT18 gives for a NaN word, a FREE VALUE under no law. Its first argument
is the number of the draw, because two requests with the same NaN may get different codes (10_state.md R11). DESIGN CHOICE, safe (log entry 7). -/
opaque Config.encNan : Nat → F32 → Code18

end Sys2Proof
end

