-- ==== Sys2Proof/Syntax.lean ====
section
/-! DEFINITION. The ten operations with their typed operands (30_encoding.md R70, R71), the packet record, and the request a
caller issues: a 4-bit selector and operands (10_state.md R20). -/

namespace Sys2Proof

/-- CommPacket (10_state.md R21): `data1`, `data2`, `data3` are R21's `data[0]`, `data[1]`, `data[2]`. Only the low 3 bits of
`type` and the low 7 bits of `id` are significant to WRITEPACKET. -/
structure CommPacket where
  type  : Word
  id    : Word
  data1 : F32
  data2 : F32
  data3 : F32
  deriving DecidableEq, Repr

/-- The ten operations, one constructor per row of the opcode table; the arguments are the inputs of R71 in R71's order. Bit
positions, offsets, widths and shape entries are naturals (R97, D6); a buffer is passed by value (R20). -/
inductive Instr where
  | readBits      (buf : Buffer) (a b : Nat)
  | setBits       (buf : Buffer) (value : Word) (offset width : Nat)
  | readSegments  (buf : Buffer) (shape : List Nat)
  | writeSegments (buf : Buffer) (shape : List Nat) (values : List Word)
  | decodeFloat18 (code : Code18)
  | encodeFloat18 (value : F32)
  | readPacket    (buf : Buffer)
  | writePacket   (packet : CommPacket)
  | typeToString  (tcode : TypeCode)
  | stringToType  (name : Name)
  deriving DecidableEq, Repr

/-- The operands a request carries beside its selector: typed values without bit positions (R70). Each operation uses those that
R71 lists for it; `value` is the u32 of SETBITS or the f32 word of ENCODEFLOAT18. The defaults are operands of zeros. -/
structure Operands where
  buf    : Buffer := []
  a      : Nat := 0
  b      : Nat := 0
  value  : BitVec 32 := 0
  offset : Nat := 0
  width  : Nat := 0
  shape  : List Nat := []
  values : List Word := []
  code   : Code18 := 0
  packet : CommPacket := ⟨0, 0, 0, 0, 0⟩
  tcode  : TypeCode := 0
  name   : Name := []
  deriving DecidableEq, Repr

/-- A request of the caller (10_state.md R20): the selector `op` and the operands.
DESIGN CHOICE (log entry 4): `src = some k` passes the caller's buffer number `k` as the operand `buf` (its content at the moment
of issue); `dst = some k` keeps a returned buffer as the caller's buffer number `k`, in place of
whatever that number held (log entry 19).
DESIGN CHOICE (log entry 5): `alongside` says that the request behind this one is issued at the same moment, to another instance
of the block (20_memory.md R45). -/
structure Request where
  op        : BitVec 4
  operands  : Operands := {}
  src       : Option Nat := none
  dst       : Option Nat := none
  alongside : Bool := false
  deriving DecidableEq, Repr

end Sys2Proof
end

