-- ==== Sys2Proof/WellFormed.lean ====
section
/-! DEFINITION. Which requests lie in the domain the spec defines: windows of at most 32 bits (R92, R95), shape entries 1 to 32
(R115), at most as many values as fields (R114). An operation outside it is still decoded, and its meaning refuses it by name. -/

namespace Sys2Proof

/-- A shape entry is a positive width of at most 32 bits (41_segmentcodec.md R115). -/
def widthOk (w : Nat) : Bool := 1 ≤ w && w ≤ 32

/-- Every entry of the shape is in the domain (R115). -/
def shapeOk (shape : List Nat) : Bool := shape.all widthOk

/-- The operands lie in the domain the spec defines for the operation. -/
def Instr.wf : Instr → Bool
  | .readBits _ a b => max a b - min a b < 32
  | .setBits _ _ _ width => width ≤ 32
  | .readSegments _ shape => shapeOk shape
  | .writeSegments _ shape values => shapeOk shape && values.length ≤ shape.length
  | .decodeFloat18 _ => true
  | .encodeFloat18 _ => true
  | .readPacket _ => true
  | .writePacket _ => true
  | .typeToString _ => true
  | .stringToType _ => true

end Sys2Proof
end

