-- ==== Sys2Proof/Decode.lean ====
section
/-! DEFINITION. From a request's selector and operands to an operation (30_encoding.md R70, R71, R72), and back. -/

namespace Sys2Proof

/-- Why a request names no operation. -/
inductive DecodeError where
  /-- The selector is 0xA to 0xF, reserved (30_encoding.md R72). -/
  | reservedSelector (op : BitVec 4)
  deriving DecidableEq, Repr

/-- The operation a selector names, with the operands that R71 lists for it. Total; the reserved selectors are rejected by
name (R72). -/
def decode (op : BitVec 4) (o : Operands) : Except DecodeError Instr :=
  match op.toNat with
  | 0x0 => .ok (.readBits o.buf o.a o.b)
  | 0x1 => .ok (.setBits o.buf o.value o.offset o.width)
  | 0x2 => .ok (.readSegments o.buf o.shape)
  | 0x3 => .ok (.writeSegments o.buf o.shape o.values)
  | 0x4 => .ok (.decodeFloat18 o.code)
  | 0x5 => .ok (.encodeFloat18 o.value)
  | 0x6 => .ok (.readPacket o.buf)
  | 0x7 => .ok (.writePacket o.packet)
  | 0x8 => .ok (.typeToString o.tcode)
  | 0x9 => .ok (.stringToType o.name)
  | _   => .error (.reservedSelector op)

/-- The selector of R70's table. -/
def selector : Instr → BitVec 4
  | .readBits ..      => 0x0
  | .setBits ..       => 0x1
  | .readSegments ..  => 0x2
  | .writeSegments .. => 0x3
  | .decodeFloat18 .. => 0x4
  | .encodeFloat18 .. => 0x5
  | .readPacket ..    => 0x6
  | .writePacket ..   => 0x7
  | .typeToString ..  => 0x8
  | .stringToType ..  => 0x9

/-- The operands of R71; what the operation does not use is zero. -/
def operandsOf : Instr → Operands
  | .readBits buf a b              => { buf := buf, a := a, b := b }
  | .setBits buf v offset width    => { buf := buf, value := v, offset := offset, width := width }
  | .readSegments buf shape        => { buf := buf, shape := shape }
  | .writeSegments buf shape vs    => { buf := buf, shape := shape, values := vs }
  | .decodeFloat18 code            => { code := code }
  | .encodeFloat18 v               => { value := v }
  | .readPacket buf                => { buf := buf }
  | .writePacket packet            => { packet := packet }
  | .typeToString tcode            => { tcode := tcode }
  | .stringToType name             => { name := name }

/-- An operation as a request carries it: selector and operands (R70). -/
def encode (i : Instr) : BitVec 4 × Operands := (selector i, operandsOf i)

/-- The operation a table word names: only `op[3:0]` has a bit position (R70), so the selector is the low 4 bits of the word's
`nbits` bits and every operand is zero. `none` for a reserved selector. DESIGN CHOICE: bits above the selector are ignored (log entry 18). -/
def decodeTableWord (nbits w : Nat) : Option Instr :=
  match decode (BitVec.ofNat 4 (w % 2 ^ nbits)) {} with
  | .ok i => some i
  | .error _ => none

end Sys2Proof
end

