-- ==== Sys2Proof/Machine/State.lean ====
section
/-! DEFINITION. The state a model of a sequence of operations carries (10_state.md R17, R22): the caller's buffers, the requests
it has yet to have served, the responses it has received, and the instance's configuration. -/

namespace Sys2Proof.Machine

/-- The caller's buffers (10_state.md R17), by number. DESIGN CHOICE: a buffer is a dense sequence of bytes of its own fixed
length (log entry 1); a number that is not listed holds the empty buffer, L = 0 (log entry 3; unsafe). Canonical form: `Memory.wf`. -/
abbrev Memory := List (Nat × Buffer)

/-- The canonical form: numbers strictly rising, and no listed buffer equal to what an unlisted number holds. -/
def Memory.wf : Memory → Bool
  | [] => true
  | (k, b) :: rest => b != [] && rest.all (fun e => k < e.1) && Memory.wf rest

/-- The response of an operation: the outputs of 30_encoding.md R71. -/
inductive Response where
  /-- READBITS: `result`. -/
  | result (v : Word)
  /-- SETBITS, WRITESEGMENTS, WRITEPACKET: `buf'`. -/
  | buffer (buf : Buffer)
  /-- READSEGMENTS: `values`. -/
  | values (vs : List Word)
  /-- DECODEFLOAT18: `value`. -/
  | value (v : F32)
  /-- ENCODEFLOAT18: `code`. -/
  | code (c : Code18)
  /-- READPACKET: `packet`. -/
  | packet (p : CommPacket)
  /-- TYPETOSTRING: `found`, `name`. -/
  | typeName (found : Bool) (name : Name)
  /-- STRINGTOTYPE: `found`, `tcode`. -/
  | typeCode (found : Bool) (tcode : TypeCode)
  deriving DecidableEq, Repr

/-- The machine's faults: NONE. The block raises no exception under any operands (60_exceptions.md R190) and has no stuck state
(93_implementation_defined.md, part 1), so no step ever answers `.fault`. -/
inductive Fault where
  deriving DecidableEq, Repr

/-- The refusals: the spec's closed list (60_exceptions.md R193) and the host's `notModelled`. Every one is SAFE: the model gives
no meaning where the hardware goes on with an unspecified response. UNVERIFIED: the list is the spec's decision D27 (log entry 14). -/
inductive Refusal where
  /-- Raised by exec's arm of an operation without a meaning; no arm raises it. Safe. -/
  | notModelled (mnemonic : String)
  /-- Raised by READBITS for `max(a,b) - min(a,b) >= 32` (R92) and by SETBITS for `width > 32` (R95). Safe. -/
  | windowTooWide
  /-- Raised by READSEGMENTS and WRITESEGMENTS for a shape entry that is 0 or above 32 (R115). Safe. -/
  | badShapeEntry
  /-- Raised by WRITESEGMENTS for more values than fields (R114). Safe. -/
  | valueCountMismatch
  /-- Raised by `step` for a request whose selector is 0xA to 0xF (R72). Safe. -/
  | reservedSelector
  /-- Raised by `step` for requests issued at the same moment that use one buffer, one of them writing it (R45). Safe. -/
  | bufferRace
  /-- Raised by any operation whose operands do not fit the instance's configured ports (R6); never with the default
  configuration. Safe. -/
  | portLimit
  deriving DecidableEq, Repr

/-- The whole state. -/
structure State where
  /-- The instance's parameters (R6), fixed. DESIGN CHOICE: held in the state (log entry 17). -/
  config    : Config
  /-- The caller's buffers (R17). DESIGN CHOICE: their numbers are the model's own and may be bound anew (log entry 19). -/
  mem       : Memory
  /-- The requests not yet served, the next one first (R12, R223). DESIGN CHOICE (log entry 2). -/
  pending   : List Request
  /-- The responses received so far, the newest first (R20, R223). DESIGN CHOICE (log entry 2). -/
  responses : List Response
  /-- The MODEL's own: how many free values have been drawn, 0 at reset. DESIGN CHOICE (log entry 7). -/
  draws     : Nat
  deriving DecidableEq, Repr

/-- An instance with configuration `c` right after reset (10_state.md R22, 70_reset_and_hazards.md R220): idle, nothing retained,
its configuration as it was. The caller's buffers are unspecified (R221): none is listed (log entry 3). -/
def State.resetWith (c : Config) : State := { config := c, mem := [], pending := [], responses := [], draws := 0 }

/-- The default instance right after reset (R6, R22). -/
def State.reset : State := State.resetWith Config.default

end Sys2Proof.Machine
end

