-- ==== Sys2Proof/Machine/Ops.lean ====
section
/-! DEFINITION. The named operations over buffers, over the caller's memory and over responses. The pseudocode primitives are
those of 00_scope.md R8. There is no exception entry or return to share: the block has none (60_exceptions.md R190, R196, R197). -/

namespace Sys2Proof.Machine

/-- `N = 8 * L`, the bit length of a buffer (20_memory.md R30). -/
def bitLen (buf : Buffer) : Nat := 8 * buf.length

/-- `BitRead(p)` (R8, R30, R33): bit `p mod 8` of byte `p div 8`, and 0 beyond the end. -/
def bitRead (buf : Buffer) (p : Nat) : Bool :=
  if p < bitLen buf then (buf.getD (p / 8) 0).getLsbD (p % 8) else false

/-- A byte with its bit `i` replaced. -/
def setBit (x : Byte) (i : Nat) (b : Bool) : Byte :=
  if b then x ||| (1#8 <<< i) else x &&& ~~~(1#8 <<< i)

/-- `BitWrite(p, b)` (R8, R30, R34): replaces one bit, and does nothing beyond the end. -/
def bitWrite (buf : Buffer) (p : Nat) (b : Bool) : Buffer :=
  if p < bitLen buf then buf.set (p / 8) (setBit (buf.getD (p / 8) 0) (p % 8) b) else buf

/-- `MemRead(addr, n)` (R8): bit `i` of the result is `BitRead(addr + i)` for `i < n`, and 0 above. -/
def memRead (buf : Buffer) (addr : Nat) : Nat → Word
  | 0 => 0
  | n + 1 => memRead buf addr n ||| (BitVec.ofBool (bitRead buf (addr + n))).setWidth 32 <<< n

/-- `MemWrite(addr, n, v)` (R8): `BitWrite(addr + i, v[i])` for every `i < n`, lowest first. -/
def memWrite (buf : Buffer) (addr : Nat) (v : Word) : Nat → Buffer
  | 0 => buf
  | n + 1 => bitWrite (memWrite buf addr v n) (addr + n) (v.getLsbD n)

/-- The caller's buffer number `k`; a number that is not listed holds the empty buffer (log entry 3). -/
def Memory.read : Memory → Nat → Buffer
  | [], _ => []
  | (j, b) :: rest, k => if j = k then b else Memory.read rest k

/-- The caller keeps `b` as its buffer number `k`; the canonical form stays. DESIGN CHOICE, safe: a number is a name the caller may
bind anew, so whatever it held is replaced, also by a buffer of another length (log entry 19). -/
def Memory.write : Memory → Nat → Buffer → Memory
  | [], k, b => if b = [] then [] else [(k, b)]
  | (j, x) :: rest, k, b =>
    if k < j then (if b = [] then (j, x) :: rest else (k, b) :: (j, x) :: rest)
    else if k = j then (if b = [] then rest else (k, b) :: rest)
    else (j, x) :: Memory.write rest k b

/-- The block returns response `r` to the caller (10_state.md R20). -/
def State.answer (s : State) (r : Response) : State := { s with responses := r :: s.responses }

/-- `n` free values are taken (42_minifloat18.md R141). -/
def State.drawn (s : State) (n : Nat) : State := { s with draws := s.draws + n }

/-- The caller keeps the buffer of the newest response, if it is one, as its buffer number `dst` (R17, R20). DESIGN
CHOICE, safe: keeping is the model's (log entry 4), and it replaces what the number held without a check of its length, which
R17 fixes for a buffer and not for a number (log entry 19). -/
def State.keep (s : State) (dst : Option Nat) : State :=
  match dst, s.responses with
  | some k, .buffer b :: _ => { s with mem := s.mem.write k b }
  | _, _ => s

/-- The caller's part of a step after the block's: a completed operation's buffer is kept. -/
def deliver (dst : Option Nat) : Host.Outcome State Fault Refusal → Host.Outcome State Fault Refusal
  | .next t => .next (t.keep dst)
  | .fault f => .fault f
  | .refused r => .refused r

/-- The operands of a request at the moment of issue: a buffer passed by number carries its content now (R20, R42). -/
def operandsAt (m : Memory) (r : Request) : Operands :=
  match r.src with
  | some k => { r.operands with buf := m.read k }
  | none => r.operands

/-- The operation a request asks for, with its operands by value (R20, R70). -/
def issue (m : Memory) (r : Request) : Except DecodeError Instr := decode r.op (operandsAt m r)

/-- The caller's buffers a request touches (R71): the operand buffer of the selectors 0x0 to 0x3 and 0x6, and the buffer that
keeps what 0x1, 0x3 and 0x7 return. -/
def touchedBuffers (r : Request) : List Nat :=
  match r.op.toNat with
  | 0x0 | 0x2 | 0x6 => r.src.toList
  | 0x1 | 0x3 => r.src.toList ++ r.dst.toList
  | 0x7 => r.dst.toList
  | _ => []

/-- The caller's buffers a request writes: those of the operations that write a buffer in 10_state.md R20's table. -/
def writtenBuffers (r : Request) : List Nat :=
  match r.op.toNat with
  | 0x1 | 0x3 => r.src.toList ++ r.dst.toList
  | 0x7 => r.dst.toList
  | _ => []

/-- Two simultaneous requests touch one buffer and at least one of them writes it (20_memory.md R45; log entry 5). -/
def races (r q : Request) : Bool :=
  (writtenBuffers r).any (touchedBuffers q).contains || (writtenBuffers q).any (touchedBuffers r).contains

/-- The requests issued at the same moment as the first one (log entry 5). -/
def simultaneous : List Request → List Request
  | [] => []
  | r :: rest => if r.alongside then r :: simultaneous rest else [r]

/-- Some two of the requests race (R45). -/
def hasRace : List Request → Bool
  | [] => false
  | r :: rest => rest.any (races r) || hasRace rest

end Sys2Proof.Machine
end

