-- ==== Sys2Proof/Machine/Operands.lean ====
section
/-! DEFINITION. Operand assembly (30_encoding.md R65): window ends, field starts, the fields of an f32 word and of a Minifloat18
code, the exact value of an f32; and the port limits of a hardware instance (00_scope.md R6). -/

namespace Sys2Proof.Machine

/-- The width of READBITS' window: `hi - lo + 1` (40_bitwindow.md R91). -/
def windowWidth (a b : Nat) : Nat := max a b - min a b + 1

/-- `start(i)`, the position of field `i` of a shape (41_segmentcodec.md R110). -/
def fieldStart (shape : List Nat) (i : Nat) : Nat := (shape.take i).sum

/-- `total(s)`, the number of bits a shape covers (R110). -/
def shapeTotal (shape : List Nat) : Nat := shape.sum

/-- `sign = c[17]` (30_encoding.md R62). -/
def codeSign (c : Code18) : Nat := slice c 17 17

/-- `expField = c[16:12]` (R62). -/
def codeExp (c : Code18) : Nat := slice c 16 12

/-- `mantissa = c[11:0]` (R62). -/
def codeMantissa (c : Code18) : Nat := slice c 11 0

/-- `sign * 2^17 + expField * 2^12 + mantissa` (R62, 42_minifloat18.md R145). -/
def packCode (sign expField mantissa : Nat) : Code18 := BitVec.ofNat 18 (sign * 2 ^ 17 + expField * 2 ^ 12 + mantissa)

/-- `S = w[31]` (30_encoding.md R64). -/
def f32Sign (w : F32) : Nat := slice w 31 31

/-- `E8 = w[30:23]` (R64). -/
def f32Exp (w : F32) : Nat := slice w 30 23

/-- `F = w[22:0]` (R64). -/
def f32Frac (w : F32) : Nat := slice w 22 0

/-- The word with the given fields (R64, 42_minifloat18.md R132). -/
def packF32 (sign exp frac : Nat) : F32 := BitVec.ofNat 32 (sign * 2 ^ 31 + exp * 2 ^ 23 + frac)

/-- `E8 = 255`, `F != 0` (R64). -/
def f32IsNaN (w : F32) : Bool := f32Exp w = 255 && f32Frac w != 0

/-- `E8 = 255`, `F = 0` (R64). -/
def f32IsInf (w : F32) : Bool := f32Exp w = 255 && f32Frac w = 0

/-- Neither an infinity nor a NaN (R64). -/
def f32IsFinite (w : F32) : Bool := f32Exp w != 255

/-- `|v| * 2^149` of a finite f32, a natural number: every finite f32 is a multiple of 2^-149 (R64). -/
def f32Scaled (w : F32) : Nat :=
  if f32Exp w = 0 then f32Frac w else (2 ^ 23 + f32Frac w) * 2 ^ (f32Exp w - 1)

/-- `real(v)` of 00_scope.md R8: the exact number a finite f32 denotes, by the two formulas of R64. -/
def f32Real (w : F32) : ℚ :=
  if f32Exp w = 0 then (-1) ^ f32Sign w * (f32Frac w : ℚ) * 2 ^ (-149 : ℤ)
  else (-1) ^ f32Sign w * (1 + (f32Frac w : ℚ) / 2 ^ 23) * 2 ^ ((f32Exp w : ℤ) - 127)

/-- `n` is within an optional limit. -/
def within (limit : Option Nat) (n : Nat) : Bool :=
  match limit with
  | none => true
  | some m => n ≤ m

/-- A bit position, offset, width or cursor sum fits an IDX_W-bit port (R6, D6). -/
def posFits (c : Config) (p : Nat) : Bool :=
  match c.idxW with
  | none => true
  | some w => p < 2 ^ w

/-- A shape fits its port: its length, its entries and its total, the last cursor (R6, R13). -/
def shapeFits (c : Config) (shape : List Nat) : Bool :=
  within c.shapeMax shape.length && shape.all (posFits c) && posFits c (shapeTotal shape)

/-- The operands fit the instance's ports (00_scope.md R6, 40_bitwindow.md R97, 60_exceptions.md R193).
DESIGN CHOICE, safe: which operand meets which limit (log entry 6). -/
def portAdmits (c : Config) : Instr → Bool
  | .readBits buf a b => within c.lMax buf.length && posFits c a && posFits c b
  | .setBits buf _ offset width =>
    within c.lMax buf.length && posFits c offset && posFits c width && posFits c (offset + width - 1)
  | .readSegments buf shape => within c.lMax buf.length && shapeFits c shape
  | .writeSegments buf shape _ => within c.lMax buf.length && shapeFits c shape
  | .decodeFloat18 _ => true
  | .encodeFloat18 _ => true
  | .readPacket buf => within c.lMax buf.length
  | .writePacket _ => true
  | .typeToString _ => true
  | .stringToType name => within c.nameMax name.length

/-- A meaning behind its port: the PortLimit refusal comes before every other one of a meaning (60_exceptions.md R195). -/
def atPort (s : State) (i : Instr) (meaning : Host.Outcome State Fault Refusal) : Host.Outcome State Fault Refusal :=
  if portAdmits s.config i then meaning else .refused .portLimit

end Sys2Proof.Machine
end

