-- ==== Sys2Proof/Machine/Flags.lean ====
section
/-! DEFINITION. The block has no flags (10_state.md R14). The only condition outputs are the `found` bits of the two look-ups in
TYPE_TABLE (43_packetframe.md R166, R167, R168), which are results and are not stored. -/

namespace Sys2Proof.Machine

/-- The display name TYPE_TABLE gives the code, if any (R166). -/
def nameOfCode (table : List (TypeCode × Name)) (tcode : TypeCode) : Option Name :=
  match table with
  | [] => none
  | (code, nm) :: rest => if code = tcode then some nm else nameOfCode rest tcode

/-- The code TYPE_TABLE gives the name, byte for byte equal, if any (R167). -/
def codeOfName (table : List (TypeCode × Name)) (name : Name) : Option TypeCode :=
  match table with
  | [] => none
  | (code, nm) :: rest => if nm = name then some code else codeOfName rest name

/-- TYPETOSTRING's outputs: not found gives the empty string, which carries no meaning (R166; UNVERIFIED, log entry 13). -/
def typeNameResponse : Option Name → Response
  | some nm => .typeName true nm
  | none => .typeName false []

/-- STRINGTOTYPE's outputs: not found gives the code 0, which carries no meaning (R167, 93_implementation_defined.md U9;
UNVERIFIED, log entry 13). -/
def typeCodeResponse : Option TypeCode → Response
  | some code => .typeCode true code
  | none => .typeCode false 0

end Sys2Proof.Machine
end

