-- ==== Sys2Proof/Machine/BitWindow.lean ====
section
/-! DEFINITION. The BitWindow family (40_bitwindow.md): READBITS, SETBITS. -/

namespace Sys2Proof.Machine

/-- READBITS on its domain (R91): the window from `min a b` to `max a b`. -/
def readWindow (buf : Buffer) (a b : Nat) : Word := memRead buf (min a b) (windowWidth a b)

/-- SETBITS on its domain (R94). -/
def writeWindow (buf : Buffer) (value : Word) (offset width : Nat) : Buffer := memWrite buf offset value width

/-- READBITS (R91, R92). -/
def execReadBits (buf : Buffer) (a b : Nat) (s : State) : Host.Outcome State Fault Refusal :=
  atPort s (.readBits buf a b)
    (if windowWidth a b ≤ 32 then .next (s.answer (.result (readWindow buf a b))) else .refused .windowTooWide)

/-- SETBITS (R94, R95). -/
def execSetBits (buf : Buffer) (value : Word) (offset width : Nat) (s : State) : Host.Outcome State Fault Refusal :=
  atPort s (.setBits buf value offset width)
    (if width ≤ 32 then .next (s.answer (.buffer (writeWindow buf value offset width))) else .refused .windowTooWide)

end Sys2Proof.Machine
end

