-- ==== Sys2Proof/Machine/SegmentCodec.lean ====
section
/-! DEFINITION. The SegmentCodec family (41_segmentcodec.md): READSEGMENTS, WRITESEGMENTS. -/

namespace Sys2Proof.Machine

/-- READSEGMENTS' walk from a cursor (R111): one window a field, the cursor advancing by the field's width. -/
def readFields (buf : Buffer) (cursor : Nat) : List Nat → List Word
  | [] => []
  | w :: shape => memRead buf cursor w :: readFields buf (cursor + w) shape

/-- WRITESEGMENTS' walk from a cursor (R113): lowest cursor first (R43); fields without a value are not written (R114;
UNVERIFIED: the spec's decision D11, log entry 15). -/
def writeFields (buf : Buffer) (cursor : Nat) : List Nat → List Word → Buffer
  | [], _ => buf
  | _ :: _, [] => buf
  | w :: shape, v :: values => writeFields (memWrite buf cursor v w) (cursor + w) shape values

/-- READSEGMENTS (R111, R115). -/
def execReadSegments (buf : Buffer) (shape : List Nat) (s : State) : Host.Outcome State Fault Refusal :=
  atPort s (.readSegments buf shape)
    (if shapeOk shape then .next (s.answer (.values (readFields buf 0 shape))) else .refused .badShapeEntry)

/-- WRITESEGMENTS (R113, R114, R115); the order of the refusals is 60_exceptions.md R195's. -/
def execWriteSegments (buf : Buffer) (shape : List Nat) (values : List Word) (s : State) :
    Host.Outcome State Fault Refusal :=
  atPort s (.writeSegments buf shape values)
    (if shapeOk shape then
      if values.length ≤ shape.length then .next (s.answer (.buffer (writeFields buf 0 shape values)))
      else .refused .valueCountMismatch
    else .refused .badShapeEntry)

end Sys2Proof.Machine
end

