-- ==== Sys2Proof/Machine/Minifloat18.lean ====
section
/-! DEFINITION. The Minifloat18 family (42_minifloat18.md): DECODEFLOAT18, ENCODEFLOAT18. -/

namespace Sys2Proof.Machine

/-- DECODEFLOAT18 as the bit transform of R132: the f32 word whose value is R131's formula, for every code (R135).
UNVERIFIED for the exponent fields 0 and 31: the spec's decision D12 (log entry 8). -/
def floatOfCode (c : Code18) : F32 := packF32 (codeSign c) (codeExp c + 112) (codeMantissa c * 2 ^ 11)

/-- Exponent field and mantissa of a magnitude, given as `m = |v| * 2^149` (R136), in exact arithmetic: the clamp above 2^17
(R138), the clamp below 2^-15 (R139), else `e + 15` with `e = floor(log2(|v|)) = log2 m - 149`, and the truncated mantissa.
UNVERIFIED: the exponent range and the two clamps are the spec's decisions D13, D14, D15 (log entries 8, 9, 10). -/
def quantise (m : Nat) : Nat × Nat :=
  if 2 ^ 166 ≤ m then (31, 4095)
  else if m < 2 ^ 134 then (0, 0)
  else (Nat.log2 m + 15 - 149, m * 4096 / 2 ^ Nat.log2 m - 4096)

/-- The sign of R140: 1 exactly when the number is below zero, so 0 for minus zero. UNVERIFIED: the
spec's decision D16 (log entry 10). -/
def encodeSign (w : F32) : Nat := if f32Scaled w = 0 then 0 else f32Sign w

/-- ENCODEFLOAT18 of a word that is no NaN (R136); an infinity is the overflow clamp (R138). -/
def codeOfNumber (w : F32) : Code18 :=
  if f32IsInf w then packCode (f32Sign w) 31 4095
  else packCode (encodeSign w) (quantise (f32Scaled w)).1 (quantise (f32Scaled w)).2

/-- ENCODEFLOAT18 (R136), the draw for a NaN being number `draw` (R141). -/
def codeOfFloat (draw : Nat) (w : F32) : Code18 := if f32IsNaN w then Config.encNan draw w else codeOfNumber w

/-- The draws an encoding takes: one for a NaN (R141). -/
def drawsOf (w : F32) : Nat := if f32IsNaN w then 1 else 0

/-- DECODEFLOAT18 (R131, R132, R135). -/
def execDecodeFloat18 (code : Code18) (s : State) : Host.Outcome State Fault Refusal :=
  atPort s (.decodeFloat18 code) (.next (s.answer (.value (floatOfCode code))))

/-- ENCODEFLOAT18 (R136 to R141). -/
def execEncodeFloat18 (value : F32) (s : State) : Host.Outcome State Fault Refusal :=
  atPort s (.encodeFloat18 value)
    (.next ((s.answer (.code (codeOfFloat s.draws value))).drawn (drawsOf value)))

end Sys2Proof.Machine
end

