-- ==== Sys2Proof/Machine/PacketFrame.lean ====
section
/-! DEFINITION. The PacketFrame family (43_packetframe.md): READPACKET, WRITEPACKET, TYPETOSTRING, STRINGTOTYPE. -/

namespace Sys2Proof.Machine

/-- FRAME_SHAPE (R160): type, id, data1, data2, data3. -/
def frameShape : List Nat := [3, 7, 18, 18, 18]

/-- The fresh buffer of WRITEPACKET: eight zero bytes (R164, 10_state.md R22). -/
def zeroFrame : Buffer := [0, 0, 0, 0, 0, 0, 0, 0]

/-- READPACKET (R161): the five fields, the data decoded; any length of buffer (R162; DEDUCED, log entry 12),
any type code (R163). -/
def packetOfFrame (buf : Buffer) : CommPacket :=
  let r := readFields buf 0 frameShape
  { type := r.getD 0 0
    id := r.getD 1 0
    data1 := floatOfCode ((r.getD 2 0).setWidth 18)
    data2 := floatOfCode ((r.getD 3 0).setWidth 18)
    data3 := floatOfCode ((r.getD 4 0).setWidth 18) }

/-- The frame with the given five fields (R164): the field writes truncate type and id (R165). -/
def frameOfFields (type id : Word) (c1 c2 c3 : Code18) : Buffer :=
  writeFields zeroFrame 0 frameShape [type, id, c1.setWidth 32, c2.setWidth 32, c3.setWidth 32]

/-- WRITEPACKET (R164), its draws numbered from `draw` on, data1 first. -/
def frameOfPacket (draw : Nat) (p : CommPacket) : Buffer :=
  frameOfFields p.type p.id (codeOfFloat draw p.data1) (codeOfFloat (draw + drawsOf p.data1) p.data2)
    (codeOfFloat (draw + drawsOf p.data1 + drawsOf p.data2) p.data3)

/-- The draws of a packet: one for each NaN among its data (42_minifloat18.md R141). -/
def packetDraws (p : CommPacket) : Nat := drawsOf p.data1 + drawsOf p.data2 + drawsOf p.data3

/-- READPACKET (R161, R162, R163). -/
def execReadPacket (buf : Buffer) (s : State) : Host.Outcome State Fault Refusal :=
  atPort s (.readPacket buf) (.next (s.answer (.packet (packetOfFrame buf))))

/-- WRITEPACKET (R164, R165). -/
def execWritePacket (packet : CommPacket) (s : State) : Host.Outcome State Fault Refusal :=
  atPort s (.writePacket packet)
    (.next ((s.answer (.buffer (frameOfPacket s.draws packet))).drawn (packetDraws packet)))

/-- TYPETOSTRING (R166). -/
def execTypeToString (tcode : TypeCode) (s : State) : Host.Outcome State Fault Refusal :=
  atPort s (.typeToString tcode) (.next (s.answer (typeNameResponse (nameOfCode s.config.typeTable tcode))))

/-- STRINGTOTYPE (R167). -/
def execStringToType (name : Name) (s : State) : Host.Outcome State Fault Refusal :=
  atPort s (.stringToType name) (.next (s.answer (typeCodeResponse (codeOfName s.config.typeTable name))))

end Sys2Proof.Machine
end

