-- ==== Sys2Proof/Machine/Dispatch.lean ====
section
/-! DEFINITION. exec: one arm per operation of the opcode table. -/

namespace Sys2Proof.Machine

def exec (i : Instr) (s : State) : Host.Outcome State Fault Refusal :=
  match i with
  | .readBits buf a b => Sys2Proof.Machine.execReadBits buf a b s
  | .setBits buf value offset width => Sys2Proof.Machine.execSetBits buf value offset width s
  | .readSegments buf shape => Sys2Proof.Machine.execReadSegments buf shape s
  | .writeSegments buf shape values => Sys2Proof.Machine.execWriteSegments buf shape values s
  | .decodeFloat18 code => Sys2Proof.Machine.execDecodeFloat18 code s
  | .encodeFloat18 value => Sys2Proof.Machine.execEncodeFloat18 value s
  | .readPacket buf => Sys2Proof.Machine.execReadPacket buf s
  | .writePacket packet => Sys2Proof.Machine.execWritePacket packet s
  | .typeToString tcode => Sys2Proof.Machine.execTypeToString tcode s
  | .stringToType name => Sys2Proof.Machine.execStringToType name s

end Sys2Proof.Machine
end

