-- ==== Sys2Proof/Machine/Step.lean ====
section
/-! DEFINITION. One step: the caller issues its next request, the block performs it, the caller keeps what comes back. -/

namespace Sys2Proof.Machine

/-- One step (10_state.md R12, R19; 20_memory.md R41, R42). With nothing pending the block is idle and nothing changes
(70_reset_and_hazards.md R220). ReservedSelector is the first refusal (60_exceptions.md R195), then BufferRace (log entry 5), then
those of the meanings. -/
def step (s : State) : Host.Outcome State Fault Refusal :=
  match s.pending with
  | [] => .next s
  | r :: rest =>
    match issue s.mem r with
    | .error (.reservedSelector _) => .refused .reservedSelector
    | .ok i =>
      if hasRace (simultaneous (r :: rest)) then .refused .bufferRace
      else deliver r.dst (exec i { s with pending := rest })

/-- `s` with the request of a table word (its selector the low 4 bits of the word's `nbits` bits, R70; its operands zero) issued
next (log entry 2). -/
def State.withFetchWord (s : State) (nbits w : Nat) : State :=
  { s with pending := { op := BitVec.ofNat 4 (w % 2 ^ nbits) } :: s.pending }

end Sys2Proof.Machine
end

