-- ==== Sys2Proof/Safety.lean ====
section
/-! DEFINITION. What counts as a safe request and a sound state, in the terms the statements use. -/

namespace Sys2Proof.Machine

/-- The operation carries a NaN, so its answer takes a free value (42_minifloat18.md R141). -/
def carriesNaN : Instr → Bool
  | .readBits _ _ _ => false
  | .setBits _ _ _ _ => false
  | .readSegments _ _ => false
  | .writeSegments _ _ _ => false
  | .decodeFloat18 _ => false
  | .encodeFloat18 v => f32IsNaN v
  | .readPacket _ => false
  | .writePacket p => f32IsNaN p.data1 || f32IsNaN p.data2 || f32IsNaN p.data3
  | .typeToString _ => false
  | .stringToType _ => false

/-- The next request is served: its selector is not reserved, it races with none issued at the same moment, its operands fit the
ports and lie in the operation's domain (60_exceptions.md R193). With nothing pending there is nothing to refuse. -/
def State.safe (s : State) : Bool :=
  match s.pending with
  | [] => true
  | r :: rest =>
    match issue s.mem r with
    | .error _ => false
    | .ok i => !hasRace (simultaneous (r :: rest)) && portAdmits s.config i && i.wf

/-- What every response of the block satisfies: a decoded packet has `type <= 7` and `id <= 127` (10_state.md R21); a name or code
that was found stands in TYPE_TABLE (43_packetframe.md R166, R167). -/
def responseOk (c : Config) : Response → Bool
  | .result _ => true
  | .buffer _ => true
  | .values _ => true
  | .value v => f32IsFinite v
  | .code _ => true
  | .packet p => p.type.toNat ≤ 7 && p.id.toNat ≤ 127 && f32IsFinite p.data1 && f32IsFinite p.data2 && f32IsFinite p.data3
  | .typeName found name => !found || (c.typeTable.map Prod.snd).contains name
  | .typeCode found tcode => !found || (c.typeTable.map Prod.fst).contains tcode

/-- The invariant: TYPE_TABLE is as R168 asks, the caller's memory is in its canonical form, every response is one the block can
give. -/
def State.Inv (s : State) : Prop :=
  s.config.wf = true ∧ s.mem.wf = true ∧ ∀ r ∈ s.responses, responseOk s.config r = true

/-- `v1 <= v2` for f32 values that are no NaN, the infinities at the two ends (42_minifloat18.md R136, R144). -/
def f32Le (w1 w2 : F32) : Prop :=
  (f32IsInf w1 = true ∧ f32Sign w1 = 1) ∨ (f32IsInf w2 = true ∧ f32Sign w2 = 0) ∨
  (f32IsFinite w1 = true ∧ f32IsFinite w2 = true ∧ f32Real w1 ≤ f32Real w2)

/-- A frame as the little-endian u64 `W` of 30_encoding.md R61; bytes a shorter buffer lacks are zero (43_packetframe.md R162). -/
def frameWord (buf : Buffer) : Nat := ((List.range 8).map (fun k => (buf.getD k 0).toNat * 2 ^ (8 * k))).sum

end Sys2Proof.Machine
end

