-- ==== Sys2Proof/Certificates/Slice0/Obligations.lean ====
section
/-! DEFINITION. The statements about the model, from the numbered rules of spec/. -/

open Sys2Proof Sys2Proof.Machine

/-! ### Reset, requests, steps -/

/-- R22, R220: right after reset an instance with configuration `c` is idle: nothing is pending, nothing was returned, its
configuration is as it was, and a step changes nothing. The default instance has TYPE_TABLE = [(2, "State")] and no limits
(R6). Of the caller's buffers and of the draw counter it says nothing (R221; log entries 3 and 7). -/
def Obligations.ResetLeavesTheBlockIdle : Prop :=
  ∀ c : Config,
    (State.resetWith c).config = c ∧ (State.resetWith c).pending = [] ∧ (State.resetWith c).responses = [] ∧
    step (State.resetWith c) = .next (State.resetWith c) ∧
    State.reset = State.resetWith Config.default ∧
    Config.default.typeTable = [(2, [0x53, 0x74, 0x61, 0x74, 0x65])] ∧
    Config.default.lMax = none ∧ Config.default.idxW = none ∧ Config.default.shapeMax = none ∧ Config.default.nameMax = none

/-- R22, R168, R21: the state after reset meets the invariant, for every configuration R168 allows, the default one among
them. -/
def Obligations.ResetMeetsTheStateInvariant : Prop :=
  (∀ c : Config, c.wf = true → (State.resetWith c).Inv) ∧ State.reset.Inv

/-- R21, R166, R167, R168 and the canonical form of memory: every step keeps the invariant, from every state that has it. -/
def Obligations.EveryStepKeepsTheStateInvariant : Prop :=
  ∀ s t : State, s.Inv → step s = .next t → t.Inv

/-- A step with nothing pending changes nothing (R12, R220: the block is idle). -/
def Obligations.IdleStepChangesNothing : Prop :=
  ∀ s : State, s.pending = [] → step s = .next s

/-- A step runs the decoded operation: when the next request decodes to `i` and races with none issued at the same moment,
the step is exec of `i` on the state without that request, and then the caller keeps a returned buffer (R12, R20, R70; log
entries 2, 4, 5). -/
def Obligations.StepRunsTheDecodedOperation : Prop :=
  ∀ (s : State) (r : Request) (rest : List Request) (i : Instr),
    s.pending = r :: rest →
    decode r.op (match r.src with
      | some k => { r.operands with buf := s.mem.read k }
      | none => r.operands) = .ok i →
    hasRace (simultaneous (r :: rest)) = false →
    step s = match exec i { s with pending := rest } with
      | .next t => .next (t.keep r.dst)
      | .fault f => .fault f
      | .refused e => .refused e

/-- R72 (the spec's decision D4): a request with a reserved selector, 0xA to 0xF, is refused with ReservedSelector, whatever
else it carries; no other selector is refused so. -/
def Obligations.ReservedSelectorsAreRefused : Prop :=
  ∀ (s : State) (r : Request) (rest : List Request), s.pending = r :: rest →
    (step s = .refused .reservedSelector ↔ 10 ≤ r.op.toNat)

/-- R70 (the numbering is the spec's decision D3): the selectors 0 to 9, as table words with zero operands, decode to the
operation R70's table names; 10 and 15 to none. -/
def Obligations.TableWordsDecode : Prop :=
  decodeTableWord 8 0x0 = some (.readBits [] 0 0) ∧
  decodeTableWord 8 0x1 = some (.setBits [] 0 0 0) ∧
  decodeTableWord 8 0x2 = some (.readSegments [] []) ∧
  decodeTableWord 8 0x3 = some (.writeSegments [] [] []) ∧
  decodeTableWord 8 0x4 = some (.decodeFloat18 0) ∧
  decodeTableWord 8 0x5 = some (.encodeFloat18 0) ∧
  decodeTableWord 8 0x6 = some (.readPacket []) ∧
  decodeTableWord 8 0x7 = some (.writePacket ⟨0, 0, 0, 0, 0⟩) ∧
  decodeTableWord 8 0x8 = some (.typeToString 0) ∧
  decodeTableWord 8 0x9 = some (.stringToType []) ∧
  decodeTableWord 8 0xA = none ∧ decodeTableWord 8 0xF = none

/-- R70, R71, R72: every operation's encoding decodes to that operation, with every operand at every value; and what decodes
has the selector it was decoded from, which is below 10. -/
def Obligations.DecodedOperationHasItsSelector : Prop :=
  (∀ i : Instr, decode (encode i).1 (encode i).2 = .ok i) ∧
  (∀ (op : BitVec 4) (o : Operands) (i : Instr), decode op o = .ok i → op.toNat < 10 ∧ (encode i).1 = op)

/-! ### What every operation leaves alone -/

/-- R11, R17, R39 (the frame of all ten operations): an operation that completes adds one response; the configuration, every
buffer of the caller and the pending requests are as before; the draw counter moves only where the operation carries a NaN.
-/
def Obligations.EveryOperationOnlyAddsOneResponse : Prop :=
  ∀ (i : Instr) (s t : State), exec i s = .next t →
    t.config = s.config ∧ t.mem = s.mem ∧ t.pending = s.pending ∧
    (∃ r : Response, t.responses = r :: s.responses) ∧
    (carriesNaN i = false → t.draws = s.draws)

/-- R11: the answer of an operation depends only on its operands and on the instance's parameters, the NaN draw apart: on
any two states with one configuration it gives the same response, or the same refusal. -/
def Obligations.AnswersDependOnOperandsOnly : Prop :=
  ∀ (i : Instr) (s s' : State), carriesNaN i = false → s.config = s'.config →
    (∃ r : Response, exec i s = .next { s with responses := r :: s.responses } ∧
      exec i s' = .next { s' with responses := r :: s'.responses }) ∨
    (∃ e : Refusal, exec i s = .refused e ∧ exec i s' = .refused e)

/-- R190, R193 (decision D27): the block raises no exception: every operation answers a next state or one of the four refusals
of a meaning, every step a next state or one of the six of R193's closed list; never another one, and never a fault. -/
def Obligations.EveryAnswerIsNextOrAListedRefusal : Prop :=
  (∀ (i : Instr) (s : State), (∃ t, exec i s = .next t) ∨
    ∃ e ∈ [Refusal.windowTooWide, .badShapeEntry, .valueCountMismatch, .portLimit], exec i s = .refused e) ∧
  (∀ s : State, (∃ t, step s = .next t) ∨
    ∃ e ∈ [Refusal.windowTooWide, .badShapeEntry, .valueCountMismatch, .reservedSelector, .bufferRace, .portLimit],
      step s = .refused e)

/-- R193, R223 (decision D27; log entry 6): an operation completes exactly when its operands fit the ports and lie in the
domain the spec defines. -/
def Obligations.OperationsCompleteExactlyOnTheirDomain : Prop :=
  ∀ (i : Instr) (s : State), (∃ t, exec i s = .next t) ↔ (portAdmits s.config i = true ∧ i.wf = true)

/-- R6, R193 (decision D7; log entry 6): an instance without port limits never refuses with PortLimit, so there each of the
ten operations completes on its whole domain. -/
def Obligations.UnboundedInstanceNeverHitsAPort : Prop :=
  ∀ (i : Instr) (s : State),
    s.config.lMax = none → s.config.idxW = none → s.config.shapeMax = none → s.config.nameMax = none →
    exec i s ≠ .refused .portLimit ∧ (i.wf = true → ∃ t, exec i s = .next t)

/-- R195 (decision D27): the order of a meaning's refusals. PortLimit comes first; then BadShapeEntry, before
ValueCountMismatch; WindowTooWide is that of the two window operations. -/
def Obligations.RefusalsComeInTheirOrder : Prop :=
  (∀ (i : Instr) (s : State), portAdmits s.config i = false → exec i s = .refused .portLimit) ∧
  (∀ (s : State) buf shape values, portAdmits s.config (.writeSegments buf shape values) = true →
    (∃ w ∈ shape, w = 0 ∨ 32 < w) → exec (.writeSegments buf shape values) s = .refused .badShapeEntry) ∧
  (∀ (s : State) buf shape values, portAdmits s.config (.writeSegments buf shape values) = true →
    (∀ w ∈ shape, 1 ≤ w ∧ w ≤ 32) → shape.length < values.length →
    exec (.writeSegments buf shape values) s = .refused .valueCountMismatch)

/-- R193, R195, R223 (decision D27; log entries 2, 5, 6): a step is served exactly when the next request is safe; otherwise
it is refused. -/
def Obligations.StepCompletesExactlyWhenSafe : Prop :=
  ∀ s : State, (s.safe = true ↔ ∃ t, step s = .next t) ∧ (s.safe = false ↔ ∃ e, step s = .refused e)

/-! ### The caller's buffers over a step -/

/-- The frame of a step over the model's caller, whose pending list (log entry 2, DESIGN CHOICE) and whose keeping of a
returned buffer under a number (log entry 4, DESIGN CHOICE) are the model's own: the only buffer of the caller that a step
can change is the one that keeps what SETBITS, WRITESEGMENTS or WRITEPACKET returns; every other buffer is as before, the
configuration is, and the request is no longer pending. -/
def Obligations.StepChangesOnlyTheKeptBuffer : Prop :=
  ∀ (s t : State) (r : Request) (rest : List Request), s.mem.wf = true → s.pending = r :: rest → step s = .next t →
    t.config = s.config ∧ t.pending = rest ∧
    ∀ k : Nat, ¬(r.dst = some k ∧ (r.op = 0x1 ∨ r.op = 0x3 ∨ r.op = 0x7)) → t.mem.read k = s.mem.read k

/-- R42 (log entries 4, 19): a buffer that a step keeps as number `k`, whatever `k` held before, is what the next request that
names `k` receives. -/
def Obligations.KeptBufferIsTheNextOperand : Prop :=
  ∀ (s t : State) (r : Request) (rest : List Request) (k : Nat) (b : Buffer), s.mem.wf = true →
    s.pending = r :: rest → r.dst = some k → step s = .next t → t.responses = .buffer b :: s.responses →
    t.mem.read k = b ∧ ∀ q : Request, q.src = some k → issue t.mem q = decode q.op { q.operands with buf := b }

/-- R94, R40, C9 (log entry 4): SETBITS on the caller's buffer `k`, kept as `k` (the in-place form), with its frame over all
of the caller's memory: the buffer keeps its length, exactly the window's positions below its end take the value's bits,
every other bit of it and every other buffer are as before. -/
def Obligations.SetBitsInPlaceChangesOnlyItsWindow : Prop :=
  ∀ (s : State) (o : Operands) (rest : List Request) (k : Nat), s.mem.wf = true →
    s.pending = { op := 0x1, operands := o, src := some k, dst := some k } :: rest →
    portAdmits s.config (.setBits (s.mem.read k) o.value o.offset o.width) = true → o.width ≤ 32 →
    ∃ t, step s = .next t ∧ t.pending = rest ∧ t.config = s.config ∧
      (∀ j, j ≠ k → t.mem.read j = s.mem.read j) ∧
      (t.mem.read k).length = (s.mem.read k).length ∧
      (∀ p, bitRead (t.mem.read k) p =
        if o.offset ≤ p ∧ p < o.offset + o.width ∧ p < 8 * (s.mem.read k).length then o.value.getLsbD (p - o.offset)
        else bitRead (s.mem.read k) p)

/-- R113, R114, R40, C9 (decision D11; log entry 4): WRITESEGMENTS on the caller's buffer `k`, kept as `k` (the in-place
form), with its frame over all of the caller's memory: the buffer keeps its length, every field that has a value takes its
bits below the end, every position at or beyond the last such field and every other buffer are as before. -/
def Obligations.WriteSegmentsInPlaceChangesOnlyItsFields : Prop :=
  ∀ (s : State) (o : Operands) (rest : List Request) (k : Nat), s.mem.wf = true →
    s.pending = { op := 0x3, operands := o, src := some k, dst := some k } :: rest →
    portAdmits s.config (.writeSegments (s.mem.read k) o.shape o.values) = true →
    (∀ w ∈ o.shape, 1 ≤ w ∧ w ≤ 32) → o.values.length ≤ o.shape.length →
    ∃ t, step s = .next t ∧ t.pending = rest ∧ t.config = s.config ∧
      (∀ j, j ≠ k → t.mem.read j = s.mem.read j) ∧
      (t.mem.read k).length = (s.mem.read k).length ∧
      (∀ (i j w : Nat) (v : Word), o.shape[i]? = some w → o.values[i]? = some v → j < w →
        (o.shape.take i).sum + j < 8 * (s.mem.read k).length →
        bitRead (t.mem.read k) ((o.shape.take i).sum + j) = v.getLsbD j) ∧
      (∀ p, (o.shape.take o.values.length).sum ≤ p → bitRead (t.mem.read k) p = bitRead (s.mem.read k) p)

/-- R45 (decision D28; log entry 5): two requests issued at the same moment, of which one writes a buffer the other touches,
are refused. -/
def Obligations.SimultaneousWriteIsARace : Prop :=
  ∀ (s : State) (r q : Request) (rest : List Request) (k : Nat), s.pending = r :: q :: rest → r.alongside = true →
    r.op.toNat < 10 →
    ((k ∈ writtenBuffers r ∧ k ∈ touchedBuffers q) ∨ (k ∈ touchedBuffers r ∧ k ∈ writtenBuffers q)) →
    step s = .refused .bufferRace

/-- R45 (decision D28; log entry 5): independent requests may be served in either order. Two requests that do not race and
carry no NaN leave the same buffers, and each gets the same response, whichever is served first. -/
def Obligations.IndependentRequestsCommute : Prop :=
  ∀ (s u t : State) (r q : Request), s.mem.wf = true → races r q = false →
    (∀ i, issue s.mem r = .ok i → carriesNaN i = false) → (∀ i, issue s.mem q = .ok i → carriesNaN i = false) →
    step { s with pending := [r, q] } = .next u → step u = .next t →
    ∃ u' t' x y, step { s with pending := [q, r] } = .next u' ∧ step u' = .next t' ∧ t'.mem = t.mem ∧ t'.draws = t.draws ∧
      t'.config = t.config ∧ t.responses = y :: x :: s.responses ∧ t'.responses = x :: y :: s.responses

/-! ### BitWindow -/

/-- R30: `N = 8 * L`, and bit position `p` is `(byte >> (p mod 8)) & 1` of byte `p div 8`; the positions that exist are 0 to
`N - 1`, and beyond them a bit reads as 0 (R33). -/
def Obligations.PositionIsBitOfByte : Prop :=
  ∀ (buf : Buffer) (p : Nat), bitLen buf = 8 * buf.length ∧
    (∀ h : p / 8 < buf.length, bitRead buf p = decide ((buf[p / 8] >>> (p % 8)) &&& 1#8 = 1#8)) ∧
    (buf.length ≤ p / 8 → bitRead buf p = false)

/-- R91, R33: READBITS (selector 0x0) on a window of at most 32 bits completes and answers the bits at `min a b` to `max a
b`, the lowest position as the least significant bit, zeros beyond the end and above the window. -/
def Obligations.ReadBitsAnswersItsWindow : Prop :=
  ∀ (s : State) (buf : Buffer) (a b : Nat), portAdmits s.config (.readBits buf a b) = true → max a b - min a b < 32 →
    (encode (.readBits buf a b)).1 = 0x0 ∧
    ∃ v : Word, exec (.readBits buf a b) s = .next { s with responses := .result v :: s.responses } ∧
      v.toNat < 2 ^ (max a b - min a b + 1) ∧
      ∀ i, v.getLsbD i = (decide (min a b + i ≤ max a b) && decide (min a b + i < 8 * buf.length) &&
        (buf.getD ((min a b + i) / 8) 0).getLsbD ((min a b + i) % 8))

/-- R93: READBITS does not depend on the order of `a` and `b`; a window that starts at or beyond the end, of at most 32
bits, reads as 0. -/
def Obligations.ReadBitsIsSymmetricAndZeroFilled : Prop :=
  (∀ (s : State) (buf : Buffer) (a b : Nat), exec (.readBits buf a b) s = exec (.readBits buf b a) s) ∧
  (∀ (s : State) (buf : Buffer) (n k : Nat), portAdmits s.config (.readBits buf n (n + k)) = true →
    8 * buf.length ≤ n → k ≤ 31 →
    exec (.readBits buf n (n + k)) s = .next { s with responses := .result 0 :: s.responses })

/-- R31: a window of width `8k` at a position divisible by 8 is the little-endian integer of those `k` bytes. -/
def Obligations.ByteWindowIsLittleEndian : Prop :=
  ∀ (s : State) (buf : Buffer) (j k : Nat), 1 ≤ k → k ≤ 4 →
    portAdmits s.config (.readBits buf (8 * j) (8 * j + 8 * k - 1)) = true →
    ∃ v : Word, exec (.readBits buf (8 * j) (8 * j + 8 * k - 1)) s = .next { s with responses := .result v :: s.responses } ∧
      v.toNat = ((List.range k).map (fun i => (buf.getD (j + i) 0).toNat * 2 ^ (8 * i))).sum

/-- R92, R95 (decisions D8, D9): a window wider than 32 bits is refused, for reads and for writes, wherever it lies. -/
def Obligations.WideWindowsAreRefused : Prop :=
  (∀ (s : State) (buf : Buffer) (a b : Nat), portAdmits s.config (.readBits buf a b) = true → 32 ≤ max a b - min a b →
    exec (.readBits buf a b) s = .refused .windowTooWide) ∧
  (∀ (s : State) (buf : Buffer) (v : Word) (offset width : Nat),
    portAdmits s.config (.setBits buf v offset width) = true → 32 < width →
    exec (.setBits buf v offset width) s = .refused .windowTooWide)

/-- R94, R40, R34: SETBITS of at most 32 bits completes and answers a buffer of the same length in which exactly the
positions `offset` to `offset + width - 1` below the end hold the value's low bits, 0 as well as 1, and every other bit is
as before; the same write on the result changes nothing more. That a write of width 0 writes nothing, that every other bit
is unchanged and that the write may be repeated are inferences the spec marks as derived (R94, R40). -/
def Obligations.SetBitsWritesExactlyItsWindow : Prop :=
  ∀ (s : State) (buf : Buffer) (v : Word) (offset width : Nat),
    portAdmits s.config (.setBits buf v offset width) = true → width ≤ 32 →
    ∃ buf' : Buffer, exec (.setBits buf v offset width) s = .next { s with responses := .buffer buf' :: s.responses } ∧
      buf'.length = buf.length ∧
      (∀ p, bitRead buf' p =
        if offset ≤ p ∧ p < offset + width ∧ p < 8 * buf.length then v.getLsbD (p - offset) else bitRead buf p) ∧
      exec (.setBits buf' v offset width) s = .next { s with responses := .buffer buf' :: s.responses }

/-- R94: bits of the value at or above the width do not matter. -/
def Obligations.SetBitsIgnoresHighValueBits : Prop :=
  ∀ (s : State) (buf : Buffer) (v : Word) (offset width : Nat),
    exec (.setBits buf v offset width) s = exec (.setBits buf (BitVec.ofNat 32 (v.toNat % 2 ^ width)) offset width) s

/-- R96: reading back a written window of 1 to 32 bits gives `v mod 2^width` inside the buffer; when the window straddles
the end, `v mod 2^(N - offset)`; beyond the end, 0. -/
def Obligations.SetBitsReadsBack : Prop :=
  ∀ (s : State) (buf : Buffer) (v : Word) (offset width : Nat),
    portAdmits s.config (.setBits buf v offset width) = true → 1 ≤ width → width ≤ 32 →
    ∃ (buf' : Buffer) (r : Word),
      exec (.setBits buf v offset width) s = .next { s with responses := .buffer buf' :: s.responses } ∧
      exec (.readBits buf' offset (offset + width - 1)) s = .next { s with responses := .result r :: s.responses } ∧
      r.toNat = v.toNat % 2 ^ (min width (8 * buf.length - offset))

/-- R43, R40: two writes to windows that do not overlap give the same buffer in either order. -/
def Obligations.DisjointWritesCommute : Prop :=
  ∀ (s : State) (buf : Buffer) (v1 v2 : Word) (o1 w1 o2 w2 : Nat),
    portAdmits s.config (.setBits buf v1 o1 w1) = true → portAdmits s.config (.setBits buf v2 o2 w2) = true →
    w1 ≤ 32 → w2 ≤ 32 → (o1 + w1 ≤ o2 ∨ o2 + w2 ≤ o1) →
    ∃ b1 b2 b : Buffer,
      exec (.setBits buf v1 o1 w1) s = .next { s with responses := .buffer b1 :: s.responses } ∧
      exec (.setBits buf v2 o2 w2) s = .next { s with responses := .buffer b2 :: s.responses } ∧
      exec (.setBits b1 v2 o2 w2) s = .next { s with responses := .buffer b :: s.responses } ∧
      exec (.setBits b2 v1 o1 w1) s = .next { s with responses := .buffer b :: s.responses }

/-! ### SegmentCodec -/

/-- R111, R110, R112, R117: READSEGMENTS on a shape with entries 1 to 32 completes and answers exactly one value a field,
each what READBITS answers on the field's window, below `2^width`, and 0 for a field entirely beyond the buffer. -/
def Obligations.ReadSegmentsAnswersEveryField : Prop :=
  ∀ (s : State) (buf : Buffer) (shape : List Nat), portAdmits s.config (.readSegments buf shape) = true →
    (∀ w ∈ shape, 1 ≤ w ∧ w ≤ 32) →
    ∃ vs : List Word, exec (.readSegments buf shape) s = .next { s with responses := .values vs :: s.responses } ∧
      vs.length = shape.length ∧
      ∀ (i w : Nat), shape[i]? = some w → ∃ v, vs[i]? = some v ∧ v.toNat < 2 ^ w ∧
        exec (.readBits buf (shape.take i).sum ((shape.take i).sum + w - 1)) s =
          .next { s with responses := .result v :: s.responses } ∧
        (8 * buf.length ≤ (shape.take i).sum → v = 0)

/-- R111, R117: READSEGMENTS does not depend on the bits at or above the shape's total. -/
def Obligations.ReadSegmentsIgnoresTheTail : Prop :=
  ∀ (s : State) (x y : Buffer) (shape : List Nat), portAdmits s.config (.readSegments x shape) = true →
    portAdmits s.config (.readSegments y shape) = true → (∀ p, p < shape.sum → bitRead x p = bitRead y p) →
    exec (.readSegments x shape) s = exec (.readSegments y shape) s

/-- R113, R114 (decision D11): WRITESEGMENTS with at most as many values as fields completes; every field that has a value
holds its low bits below the end, and every position at or beyond the last field that has a value is as before. -/
def Obligations.WriteSegmentsWritesItsFields : Prop :=
  ∀ (s : State) (buf : Buffer) (shape : List Nat) (values : List Word),
    portAdmits s.config (.writeSegments buf shape values) = true → (∀ w ∈ shape, 1 ≤ w ∧ w ≤ 32) →
    values.length ≤ shape.length →
    ∃ buf' : Buffer,
      exec (.writeSegments buf shape values) s = .next { s with responses := .buffer buf' :: s.responses } ∧
      buf'.length = buf.length ∧
      (∀ (i j w : Nat) (v : Word), shape[i]? = some w → values[i]? = some v → j < w →
        (shape.take i).sum + j < 8 * buf.length → bitRead buf' ((shape.take i).sum + j) = v.getLsbD j) ∧
      (∀ p, (shape.take values.length).sum ≤ p → bitRead buf' p = bitRead buf p)

/-- R113, R76, R43: WRITESEGMENTS is one SETBITS a field, in shape order, at the sum of the widths before it: writing one
field more is a SETBITS of the last value at the end of the fields before, on what those left. -/
def Obligations.WriteSegmentsIsOneSetBitsPerField : Prop :=
  ∀ (s : State) (buf : Buffer) (shape : List Nat) (values : List Word) (w : Nat) (v : Word),
    portAdmits s.config (.writeSegments buf (shape ++ [w]) (values ++ [v])) = true →
    (∀ x ∈ shape ++ [w], 1 ≤ x ∧ x ≤ 32) → values.length = shape.length →
    ∃ b1 b2 : Buffer,
      exec (.writeSegments buf shape values) s = .next { s with responses := .buffer b1 :: s.responses } ∧
      exec (.setBits b1 v shape.sum w) s = .next { s with responses := .buffer b2 :: s.responses } ∧
      exec (.writeSegments buf (shape ++ [w]) (values ++ [v])) s = .next { s with responses := .buffer b2 :: s.responses }

/-- R115 (decision D10): a shape with an entry 0 or above 32 is refused, for reading and for writing, whatever the values.
-/
def Obligations.BadShapesAreRefused : Prop :=
  ∀ (s : State) (buf : Buffer) (shape : List Nat) (values : List Word), (∃ w ∈ shape, w = 0 ∨ 32 < w) →
    (portAdmits s.config (.readSegments buf shape) = true → exec (.readSegments buf shape) s = .refused .badShapeEntry) ∧
    (portAdmits s.config (.writeSegments buf shape values) = true →
      exec (.writeSegments buf shape values) s = .refused .badShapeEntry)

/-- R116: for a shape whose total is the buffer's bit length, writing back into any buffer of that length what was read
gives the buffer bit for bit. -/
def Obligations.SegmentRoundTrip : Prop :=
  ∀ (s : State) (buf buf' : Buffer) (shape : List Nat), portAdmits s.config (.readSegments buf shape) = true →
    shape.sum = 8 * buf.length → buf'.length = buf.length → (∀ w ∈ shape, 1 ≤ w ∧ w ≤ 32) →
    ∃ vs : List Word,
      exec (.readSegments buf shape) s = .next { s with responses := .values vs :: s.responses } ∧
      exec (.writeSegments buf' shape vs) s = .next { s with responses := .buffer buf :: s.responses }

/-- R117: when the shape fits the buffer, reading back what was written gives every value modulo its field's size. -/
def Obligations.WrittenSegmentsReadBack : Prop :=
  ∀ (s : State) (buf : Buffer) (shape : List Nat) (values : List Word),
    portAdmits s.config (.writeSegments buf shape values) = true → (∀ w ∈ shape, 1 ≤ w ∧ w ≤ 32) →
    values.length = shape.length → shape.sum ≤ 8 * buf.length →
    ∃ (buf' : Buffer) (vs : List Word),
      exec (.writeSegments buf shape values) s = .next { s with responses := .buffer buf' :: s.responses } ∧
      exec (.readSegments buf' shape) s = .next { s with responses := .values vs :: s.responses } ∧
      ∀ (i w : Nat) (v : Word), shape[i]? = some w → values[i]? = some v →
        ∃ x, vs[i]? = some x ∧ x.toNat = v.toNat % 2 ^ w

/-! ### Minifloat18 -/

/-- R131, R132, R135 (decision D12 for the exponent fields 0 and 31; log entry 8): DECODEFLOAT18 completes for every one of
the 2^18 codes, and the exact value of its result is `(1 + mantissa / 4096) * 2^(expField - 15)`, negated if the sign bit is
set. -/
def Obligations.DecodeGivesTheFormulasValue : Prop :=
  ∀ (s : State) (c : Code18), ∃ w : F32,
    exec (.decodeFloat18 c) s = .next { s with responses := .value w :: s.responses } ∧ f32IsFinite w = true ∧
    f32Real w = (if c.getLsbD 17 then -1 else 1) * (1 + ((c.toNat % 2 ^ 12 : Nat) : ℚ) / 4096) *
      2 ^ (((c.toNat / 2 ^ 12 % 2 ^ 5 : Nat) : ℤ) - 15)

/-- R132: the result word has the code's sign, `E8 = expField + 112`, between 112 and 143, and `F = mantissa << 11`. -/
def Obligations.DecodedWordFields : Prop :=
  ∀ (s : State) (c : Code18), ∃ w : F32,
    exec (.decodeFloat18 c) s = .next { s with responses := .value w :: s.responses } ∧
    w.getLsbD 31 = c.getLsbD 17 ∧
    w.toNat / 2 ^ 23 % 2 ^ 8 = c.toNat / 2 ^ 12 % 2 ^ 5 + 112 ∧
    112 ≤ w.toNat / 2 ^ 23 % 2 ^ 8 ∧ w.toNat / 2 ^ 23 % 2 ^ 8 ≤ 143 ∧
    w.toNat % 2 ^ 23 = c.toNat % 2 ^ 12 * 2 ^ 11

/-- R130, R133: no code is zero: every magnitude is between 2^-15, that of code 0, and 131056, that of code 0x1FFFF. -/
def Obligations.EveryCodeIsFiniteAndNonZero : Prop :=
  (∀ c : Code18, 2 ^ (-15 : ℤ) ≤ |f32Real (floatOfCode c)| ∧ |f32Real (floatOfCode c)| ≤ 131056) ∧
  f32Real (floatOfCode 0) = 2 ^ (-15 : ℤ) ∧ f32Real (floatOfCode 0x20000) = -(2 ^ (-15 : ℤ)) ∧
  f32Real (floatOfCode 0x1FFFF) = 131056 ∧ f32Real (floatOfCode 0x3FFFF) = -131056

/-- R134: decoding is injective, the sign bit only negates, and order is kept among positive codes and reversed among
negative. -/
def Obligations.DecodingIsInjectiveAndOrdered : Prop :=
  (∀ c1 c2 : Code18, f32Real (floatOfCode c1) = f32Real (floatOfCode c2) → c1 = c2) ∧
  (∀ c : Code18, c.toNat < 2 ^ 17 →
    f32Real (floatOfCode (BitVec.ofNat 18 (c.toNat + 2 ^ 17))) = -f32Real (floatOfCode c)) ∧
  (∀ c1 c2 : Code18, c1.toNat < c2.toNat → c2.toNat < 2 ^ 17 → f32Real (floatOfCode c1) < f32Real (floatOfCode c2)) ∧
  (∀ c1 c2 : Code18, 2 ^ 17 ≤ c1.toNat → c1.toNat < c2.toNat → f32Real (floatOfCode c2) < f32Real (floatOfCode c1))

/-- R136, R137, R140 (decisions D13, D16, D18; log entries 8, 11): for a finite value with `2^e <= |v| < 2^(e+1)` and `-15
<= e <= 16` ENCODEFLOAT18 completes with sign 1 exactly for `v < 0`, exponent field `e + 15` and mantissa `floor((|v| / 2^e
- 1) * 4096)`, in exact arithmetic. -/
def Obligations.EncodeFollowsTheRealFormula : Prop :=
  ∀ (s : State) (w : F32) (e : ℤ), f32IsFinite w = true → -15 ≤ e → e ≤ 16 →
    2 ^ e ≤ |f32Real w| → |f32Real w| < 2 ^ (e + 1) →
    ∃ c : Code18, exec (.encodeFloat18 w) s = .next { s with responses := .code c :: s.responses } ∧
      (c.getLsbD 17 = true ↔ f32Real w < 0) ∧
      ((c.toNat / 2 ^ 12 % 2 ^ 5 : Nat) : ℤ) = e + 15 ∧
      ((c.toNat % 2 ^ 12 : Nat) : ℤ) = ⌊(|f32Real w| / 2 ^ e - 1) * 4096⌋

/-- R138 (decision D14; log entry 9): a finite value with `|v| >= 131056`, and an infinity, encode to the code of largest
magnitude with the value's sign, which decodes to 131056 or its negative: the clamp at and above 2^17, and below it the
ordinary path. -/
def Obligations.EncodeClampsOverflow : Prop :=
  ∀ (s : State) (w : F32), f32IsInf w = true ∨ (f32IsFinite w = true ∧ 131056 ≤ |f32Real w|) →
    ∃ d : F32,
      exec (.encodeFloat18 w) s =
        .next { s with responses := .code (if w.getLsbD 31 then 0x3FFFF else 0x1FFFF) :: s.responses } ∧
      exec (.decodeFloat18 (if w.getLsbD 31 then 0x3FFFF else 0x1FFFF)) s =
        .next { s with responses := .value d :: s.responses } ∧
      f32Real d = (if w.getLsbD 31 then -131056 else 131056)

/-- R139 (decision D15; log entry 10): a finite value with `|v| < 2^-15`, zeros and subnormals included, encodes to the code
of smallest magnitude: 0x20000 for a value below zero, else 0x00000; these decode to -2^-15 and 2^-15. -/
def Obligations.EncodeClampsUnderflow : Prop :=
  ∀ (s : State) (w : F32), f32IsFinite w = true → |f32Real w| < 2 ^ (-15 : ℤ) →
    ∃ d : F32,
      exec (.encodeFloat18 w) s =
        .next { s with responses := .code (if f32Real w < 0 then 0x20000 else 0x00000) :: s.responses } ∧
      exec (.decodeFloat18 (if f32Real w < 0 then 0x20000 else 0x00000)) s =
        .next { s with responses := .value d :: s.responses } ∧
      f32Real d = (if f32Real w < 0 then -(2 ^ (-15 : ℤ)) else 2 ^ (-15 : ℤ))

/-- R140 (decision D16; log entry 10): the sign of a code is 1 exactly when the value is below zero, negative infinity
included; both zeros give the code 0x00000; for every other word that is no NaN the sign is the word's own. -/
def Obligations.EncodedSignIsThatOfTheNumber : Prop :=
  (∀ (s : State) (w : F32), f32IsNaN w = false →
    ∃ c : Code18, exec (.encodeFloat18 w) s = .next { s with responses := .code c :: s.responses } ∧
      (c.getLsbD 17 = true ↔ w = 0xFF800000 ∨ (f32IsFinite w = true ∧ f32Real w < 0)) ∧
      (w ≠ 0x00000000 → w ≠ 0x80000000 → c.getLsbD 17 = w.getLsbD 31)) ∧
  (∀ s : State, exec (.encodeFloat18 0x00000000) s = .next { s with responses := .code 0x00000 :: s.responses } ∧
    exec (.encodeFloat18 0x80000000) s = .next { s with responses := .code 0x00000 :: s.responses })

/-- R141 (decision D17; log entry 7): a NaN completes with some code, a free value, and takes one draw; nothing else
changes. -/
def Obligations.EncodeOfNaNCompletes : Prop :=
  ∀ (s : State) (w : F32), f32IsNaN w = true →
    ∃ c : Code18, exec (.encodeFloat18 w) s = .next { s with responses := .code c :: s.responses, draws := s.draws + 1 }

/-- R142 (derived by the spec from R136 and R64; log entry 11): on every word that is no NaN the exact rule is the bit
transform on S, E8 and F; a NaN gets some code. -/
def Obligations.EncodeIsTheBitTransform : Prop :=
  ∀ (s : State) (w : F32),
    (w.toNat / 2 ^ 23 % 2 ^ 8 = 255 ∧ w.toNat % 2 ^ 23 ≠ 0 →
      ∃ (c : Code18) (t : State), exec (.encodeFloat18 w) s = .next t ∧ t.responses = .code c :: s.responses) ∧
    (¬(w.toNat / 2 ^ 23 % 2 ^ 8 = 255 ∧ w.toNat % 2 ^ 23 ≠ 0) →
      exec (.encodeFloat18 w) s = .next { s with responses := .code (BitVec.ofNat 18 (
        if 144 ≤ w.toNat / 2 ^ 23 % 2 ^ 8 then w.toNat / 2 ^ 31 * 2 ^ 17 + 31 * 2 ^ 12 + 4095
        else if w.toNat / 2 ^ 23 % 2 ^ 8 ≤ 111 then
          (if w.toNat / 2 ^ 23 % 2 ^ 8 = 0 ∧ w.toNat % 2 ^ 23 = 0 then 0 else w.toNat / 2 ^ 31 * 2 ^ 17)
        else w.toNat / 2 ^ 31 * 2 ^ 17 + (w.toNat / 2 ^ 23 % 2 ^ 8 - 112) * 2 ^ 12 + w.toNat % 2 ^ 23 / 2 ^ 11)) ::
        s.responses })

/-- R144: encoding a decoded code gives the code back, for every code. -/
def Obligations.EncodeUndoesDecode : Prop :=
  ∀ (s : State) (c : Code18), ∃ w : F32,
    exec (.decodeFloat18 c) s = .next { s with responses := .value w :: s.responses } ∧
    exec (.encodeFloat18 w) s = .next { s with responses := .code c :: s.responses }

/-- R143, R144: for a finite value with `2^e <= |v| < 2^(e+1)` and `-15 <= e <= 16`, decoding the encoding gives a value of
the same sign, of magnitude at most `|v|`, less than `2^(e-12)` away: truncation toward zero. -/
def Obligations.DecodeAfterEncodeTruncates : Prop :=
  ∀ (s : State) (w : F32) (e : ℤ), f32IsFinite w = true → -15 ≤ e → e ≤ 16 →
    2 ^ e ≤ |f32Real w| → |f32Real w| < 2 ^ (e + 1) →
    ∃ (c : Code18) (d : F32),
      exec (.encodeFloat18 w) s = .next { s with responses := .code c :: s.responses } ∧
      exec (.decodeFloat18 c) s = .next { s with responses := .value d :: s.responses } ∧
      (f32Real d < 0 ↔ f32Real w < 0) ∧ |f32Real d| ≤ |f32Real w| ∧ |f32Real w - f32Real d| < 2 ^ (e - 12)

/-- R144: encoding and then decoding is monotonic on all inputs that are no NaN, the infinities included. -/
def Obligations.QuantiserIsMonotonic : Prop :=
  ∀ (s : State) (w1 w2 : F32), f32IsNaN w1 = false → f32IsNaN w2 = false → f32Le w1 w2 →
    ∃ (c1 c2 : Code18) (d1 d2 : F32),
      exec (.encodeFloat18 w1) s = .next { s with responses := .code c1 :: s.responses } ∧
      exec (.encodeFloat18 w2) s = .next { s with responses := .code c2 :: s.responses } ∧
      exec (.decodeFloat18 c1) s = .next { s with responses := .value d1 :: s.responses } ∧
      exec (.decodeFloat18 c2) s = .next { s with responses := .value d2 :: s.responses } ∧
      f32Real d1 ≤ f32Real d2

/-! ### PacketFrame -/

/-- R161, R60, R163: READPACKET (selector 0x6) completes on every buffer its port takes; with `W` the frame as a
little-endian u64 (R61, which the spec marks as derived), type is `W[2:0]` as it is, id `W[9:3]`, and the three data values
are what DECODEFLOAT18 answers on `W[27:10]`, `W[45:28]`, `W[63:46]`. That lengths other than 8 are admitted is R162,
decision D24 (log entry 12, DEDUCED). -/
def Obligations.ReadPacketAnswersTheFrame : Prop :=
  ∀ (s : State) (buf : Buffer), portAdmits s.config (.readPacket buf) = true →
    (encode (.readPacket buf)).1 = 0x6 ∧
    ∃ p : CommPacket, exec (.readPacket buf) s = .next { s with responses := .packet p :: s.responses } ∧
      p.type.toNat = frameWord buf % 2 ^ 3 ∧ p.id.toNat = frameWord buf / 2 ^ 3 % 2 ^ 7 ∧
      exec (.decodeFloat18 (BitVec.ofNat 18 (frameWord buf / 2 ^ 10))) s =
        .next { s with responses := .value p.data1 :: s.responses } ∧
      exec (.decodeFloat18 (BitVec.ofNat 18 (frameWord buf / 2 ^ 28))) s =
        .next { s with responses := .value p.data2 :: s.responses } ∧
      exec (.decodeFloat18 (BitVec.ofNat 18 (frameWord buf / 2 ^ 46))) s =
        .next { s with responses := .value p.data3 :: s.responses }

/-- R162 (decision D24; log entry 12): a shorter buffer is read as if padded with zero bytes, and bytes at index 8 and above
are never read. -/
def Obligations.ShortFrameReadsAsZeroPadded : Prop :=
  ∀ (s : State) (buf : Buffer), portAdmits s.config (.readPacket buf) = true →
    portAdmits s.config (.readPacket [0, 0, 0, 0, 0, 0, 0, 0]) = true →
    exec (.readPacket buf) s = exec (.readPacket ((buf ++ [0, 0, 0, 0, 0, 0, 0, 0]).take 8)) s

/-- R164: WRITEPACKET (selector 0x7) completes on every packet with a frame of 8 bytes whose u64 (R61, which the spec marks
as derived) is type mod 8 (R165, derived for the type), id mod 128 and the three codes side by side, nothing spilling; each
code is what ENCODEFLOAT18 answers where the value is no NaN. That every NaN takes one draw is the model's (log entry 7,
DESIGN CHOICE). -/
def Obligations.WritePacketBuildsTheFrame : Prop :=
  ∀ (s : State) (p : CommPacket), (encode (.writePacket p)).1 = 0x7 ∧ ∃ (buf' : Buffer) (c1 c2 c3 : Code18),
    exec (.writePacket p) s = .next { s with
      responses := .buffer buf' :: s.responses
      draws := s.draws + ([p.data1, p.data2, p.data3].filter f32IsNaN).length } ∧
    buf'.length = 8 ∧
    frameWord buf' = p.type.toNat % 8 + p.id.toNat % 128 * 2 ^ 3 + c1.toNat * 2 ^ 10 + c2.toNat * 2 ^ 28 + c3.toNat * 2 ^ 46 ∧
    (f32IsNaN p.data1 = false → exec (.encodeFloat18 p.data1) s = .next { s with responses := .code c1 :: s.responses }) ∧
    (f32IsNaN p.data2 = false → exec (.encodeFloat18 p.data2) s = .next { s with responses := .code c2 :: s.responses }) ∧
    (f32IsNaN p.data3 = false → exec (.encodeFloat18 p.data3) s = .next { s with responses := .code c3 :: s.responses })

/-- R76: the two packet operations are their expansions: READPACKET is READSEGMENTS on the frame shape and three
DECODEFLOAT18, WRITEPACKET of a packet without NaN is three ENCODEFLOAT18 and WRITESEGMENTS into eight zero bytes. -/
def Obligations.PacketOperationsAreTheirExpansions : Prop :=
  (∀ (s : State) (buf : Buffer), portAdmits s.config (.readPacket buf) = true →
    portAdmits s.config (.readSegments buf [3, 7, 18, 18, 18]) = true →
    ∃ r0 r1 r2 r3 r4 d1 d2 d3 : BitVec 32,
      exec (.readSegments buf [3, 7, 18, 18, 18]) s =
        .next { s with responses := .values [r0, r1, r2, r3, r4] :: s.responses } ∧
      exec (.decodeFloat18 (r2.setWidth 18)) s = .next { s with responses := .value d1 :: s.responses } ∧
      exec (.decodeFloat18 (r3.setWidth 18)) s = .next { s with responses := .value d2 :: s.responses } ∧
      exec (.decodeFloat18 (r4.setWidth 18)) s = .next { s with responses := .value d3 :: s.responses } ∧
      exec (.readPacket buf) s = .next { s with responses := .packet ⟨r0, r1, d1, d2, d3⟩ :: s.responses }) ∧
  (∀ (s : State) (p : CommPacket), carriesNaN (.writePacket p) = false →
    (∀ vs, portAdmits s.config (.writeSegments [0, 0, 0, 0, 0, 0, 0, 0] [3, 7, 18, 18, 18] vs) = true) →
    ∃ (c1 c2 c3 : Code18) (b : Buffer),
      exec (.encodeFloat18 p.data1) s = .next { s with responses := .code c1 :: s.responses } ∧
      exec (.encodeFloat18 p.data2) s = .next { s with responses := .code c2 :: s.responses } ∧
      exec (.encodeFloat18 p.data3) s = .next { s with responses := .code c3 :: s.responses } ∧
      exec (.writeSegments [0, 0, 0, 0, 0, 0, 0, 0] [3, 7, 18, 18, 18]
        [p.type, p.id, c1.setWidth 32, c2.setWidth 32, c3.setWidth 32]) s =
        .next { s with responses := .buffer b :: s.responses } ∧
      exec (.writePacket p) s = .next { s with responses := .buffer b :: s.responses })

/-- R169: for every 8-byte buffer, writing the packet that was read gives the buffer, bit for bit. -/
def Obligations.FrameRoundTrip : Prop :=
  ∀ (s : State) (b : Buffer), b.length = 8 → portAdmits s.config (.readPacket b) = true →
    ∃ p : CommPacket, exec (.readPacket b) s = .next { s with responses := .packet p :: s.responses } ∧
      exec (.writePacket p) s = .next { s with responses := .buffer b :: s.responses }

/-- R169: for every packet with `type <= 7`, `id <= 127` and no NaN, reading the frame that was written gives the same type
and id, and each data value is what DECODEFLOAT18 answers on what ENCODEFLOAT18 answers. -/
def Obligations.PacketRoundTrip : Prop :=
  ∀ (s : State) (p : CommPacket), p.type.toNat ≤ 7 → p.id.toNat ≤ 127 → carriesNaN (.writePacket p) = false →
    portAdmits s.config (.readPacket [0, 0, 0, 0, 0, 0, 0, 0]) = true →
    ∃ (b : Buffer) (q : CommPacket) (c1 c2 c3 : Code18),
      exec (.writePacket p) s = .next { s with responses := .buffer b :: s.responses } ∧
      exec (.readPacket b) s = .next { s with responses := .packet q :: s.responses } ∧
      q.type = p.type ∧ q.id = p.id ∧
      exec (.encodeFloat18 p.data1) s = .next { s with responses := .code c1 :: s.responses } ∧
      exec (.decodeFloat18 c1) s = .next { s with responses := .value q.data1 :: s.responses } ∧
      exec (.encodeFloat18 p.data2) s = .next { s with responses := .code c2 :: s.responses } ∧
      exec (.decodeFloat18 c2) s = .next { s with responses := .value q.data2 :: s.responses } ∧
      exec (.encodeFloat18 p.data3) s = .next { s with responses := .code c3 :: s.responses } ∧
      exec (.decodeFloat18 c3) s = .next { s with responses := .value q.data3 :: s.responses }

/-- R166, R168 (decisions D21 to D23; log entry 13): TYPETOSTRING completes for every code: with the entry's name where
TYPE_TABLE has the code, with `found = 0` where it has none. The name beside `found = 0` carries no meaning
(93_implementation_defined.md U9), so nothing is said of it. -/
def Obligations.TypeToStringLooksUpTheTable : Prop :=
  ∀ (s : State) (tcode : TypeCode), s.config.wf = true →
    (∀ nm : Name, (tcode, nm) ∈ s.config.typeTable →
      exec (.typeToString tcode) s = .next { s with responses := .typeName true nm :: s.responses }) ∧
    ((∀ nm : Name, (tcode, nm) ∉ s.config.typeTable) →
      ∃ nm, exec (.typeToString tcode) s = .next { s with responses := .typeName false nm :: s.responses })

/-- R167, R168 (decisions D21 to D23; log entry 13): STRINGTOTYPE completes for every name its port takes: with the entry's
code where TYPE_TABLE has the name, byte for byte, with `found = 0` where it has none. The code beside `found = 0` carries
no meaning (U9), so nothing is said of it. -/
def Obligations.StringToTypeLooksUpTheTable : Prop :=
  ∀ (s : State) (name : Name), s.config.wf = true → portAdmits s.config (.stringToType name) = true →
    (∀ c : TypeCode, (c, name) ∈ s.config.typeTable →
      exec (.stringToType name) s = .next { s with responses := .typeCode true c :: s.responses }) ∧
    ((∀ c : TypeCode, (c, name) ∉ s.config.typeTable) →
      ∃ c, exec (.stringToType name) s = .next { s with responses := .typeCode false c :: s.responses })

/-- R168 (decision D21; log entry 13): the two look-ups are mutually inverse on the table: the name TYPETOSTRING finds for a
code is found by STRINGTOTYPE, with that code, at a port that takes it; and the code STRINGTOTYPE finds for a name is found by
TYPETOSTRING, with that name. -/
def Obligations.TypeLookupsAreInverse : Prop :=
  ∀ (s : State) (tcode : TypeCode) (nm : Name), s.config.wf = true →
    (exec (.typeToString tcode) s = .next { s with responses := .typeName true nm :: s.responses } →
      portAdmits s.config (.stringToType nm) = true →
      exec (.stringToType nm) s = .next { s with responses := .typeCode true tcode :: s.responses }) ∧
    (exec (.stringToType nm) s = .next { s with responses := .typeCode true tcode :: s.responses } →
      exec (.typeToString tcode) s = .next { s with responses := .typeName true nm :: s.responses })
end

