-- ==== Sys2Proof/Laws/State.lean ====
section
/-! SUPPORT. One lemma per field of State per update, so that no proof unfolds a record update. -/

namespace Sys2Proof.Machine

@[simp] theorem State.answer_config (s : State) (r : Response) : (s.answer r).config = s.config := rfl
@[simp] theorem State.answer_mem (s : State) (r : Response) : (s.answer r).mem = s.mem := rfl
@[simp] theorem State.answer_pending (s : State) (r : Response) : (s.answer r).pending = s.pending := rfl
@[simp] theorem State.answer_responses (s : State) (r : Response) : (s.answer r).responses = r :: s.responses := rfl
@[simp] theorem State.answer_draws (s : State) (r : Response) : (s.answer r).draws = s.draws := rfl

@[simp] theorem State.drawn_config (s : State) (n : Nat) : (s.drawn n).config = s.config := rfl
@[simp] theorem State.drawn_mem (s : State) (n : Nat) : (s.drawn n).mem = s.mem := rfl
@[simp] theorem State.drawn_pending (s : State) (n : Nat) : (s.drawn n).pending = s.pending := rfl
@[simp] theorem State.drawn_responses (s : State) (n : Nat) : (s.drawn n).responses = s.responses := rfl
@[simp] theorem State.drawn_draws (s : State) (n : Nat) : (s.drawn n).draws = s.draws + n := rfl
@[simp] theorem State.drawn_zero (s : State) : s.drawn 0 = s := rfl

@[simp] theorem State.resetWith_config (c : Config) : (State.resetWith c).config = c := rfl
@[simp] theorem State.resetWith_mem (c : Config) : (State.resetWith c).mem = [] := rfl
@[simp] theorem State.resetWith_pending (c : Config) : (State.resetWith c).pending = [] := rfl
@[simp] theorem State.resetWith_responses (c : Config) : (State.resetWith c).responses = [] := rfl
@[simp] theorem State.resetWith_draws (c : Config) : (State.resetWith c).draws = 0 := rfl

@[simp] theorem State.withFetchWord_config (s : State) (n w : Nat) : (s.withFetchWord n w).config = s.config := rfl
@[simp] theorem State.withFetchWord_mem (s : State) (n w : Nat) : (s.withFetchWord n w).mem = s.mem := rfl
@[simp] theorem State.withFetchWord_responses (s : State) (n w : Nat) :
    (s.withFetchWord n w).responses = s.responses := rfl
@[simp] theorem State.withFetchWord_draws (s : State) (n w : Nat) : (s.withFetchWord n w).draws = s.draws := rfl

@[simp] theorem State.keep_none (s : State) : s.keep none = s := rfl

@[simp] theorem State.keep_config (s : State) (d : Option Nat) : (s.keep d).config = s.config := by
  unfold State.keep; split <;> rfl
@[simp] theorem State.keep_pending (s : State) (d : Option Nat) : (s.keep d).pending = s.pending := by
  unfold State.keep; split <;> rfl
@[simp] theorem State.keep_responses (s : State) (d : Option Nat) : (s.keep d).responses = s.responses := by
  unfold State.keep; split <;> rfl
@[simp] theorem State.keep_draws (s : State) (d : Option Nat) : (s.keep d).draws = s.draws := by
  unfold State.keep; split <;> rfl

/-- All that keeping can do to the caller's buffers. -/
theorem State.keep_mem_cases (s : State) (d : Option Nat) :
    (s.keep d).mem = s.mem ∨
    ∃ k b rest, d = some k ∧ s.responses = .buffer b :: rest ∧ (s.keep d).mem = s.mem.write k b := by
  unfold State.keep
  split
  · exact .inr ⟨_, _, _, rfl, ‹_›, rfl⟩
  · exact .inl rfl

@[simp] theorem deliver_next (d : Option Nat) (t : State) : deliver d (.next t) = .next (t.keep d) := rfl
@[simp] theorem deliver_refused (d : Option Nat) (r : Refusal) : deliver d (.refused r) = .refused r := rfl

/-- A delivered next state comes from a next state. -/
theorem deliver_eq_next {d : Option Nat} {o : Host.Outcome State Fault Refusal} {t : State}
    (h : deliver d o = .next t) : ∃ u, o = .next u ∧ t = u.keep d := by
  cases o with
  | next u => exact ⟨u, rfl, by simpa using h.symm⟩
  | fault f => cases f
  | refused r => cases h

end Sys2Proof.Machine
end

