-- ==== Sys2Proof/Laws/Buffer.lean ====
section
/-! SUPPORT. The laws of the four access primitives: what a bit reads as after a write, and what a window's bits are. -/

namespace Sys2Proof.Machine

@[simp] theorem bitLen_nil : bitLen [] = 0 := rfl

/-- A read beyond the end is 0 (R33). -/
theorem bitRead_beyond {buf : Buffer} {p : Nat} (h : bitLen buf ≤ p) : bitRead buf p = false := by
  simp [bitRead, Nat.not_lt.mpr h]

/-- A write beyond the end is dropped (R34). -/
theorem bitWrite_beyond {buf : Buffer} {p : Nat} (b : Bool) (h : bitLen buf ≤ p) : bitWrite buf p b = buf := by
  simp [bitWrite, Nat.not_lt.mpr h]

@[simp] theorem length_bitWrite (buf : Buffer) (p : Nat) (b : Bool) : (bitWrite buf p b).length = buf.length := by
  unfold bitWrite; split <;> simp

@[simp] theorem bitLen_bitWrite (buf : Buffer) (p : Nat) (b : Bool) : bitLen (bitWrite buf p b) = bitLen buf := by
  simp [bitLen]

/-- A byte's bits after one of them is replaced. -/
theorem getLsbD_setBit (x : Byte) {i : Nat} (b : Bool) (j : Nat) (hi : i < 8) :
    (setBit x i b).getLsbD j = if j = i then b else x.getLsbD j := by
  unfold setBit
  by_cases hj : j = i
  · cases b <;> simp [hj, hi]
  · by_cases hj8 : j < 8
    · cases b <;> simp [hj, hj8] <;> intros <;> omega
    · cases b <;> simp [hj, BitVec.getLsbD_of_ge _ _ (Nat.not_lt.mp hj8)]

/-- A bit after a one-bit write (R30, R34, R40). -/
theorem bitRead_bitWrite (buf : Buffer) (p : Nat) (b : Bool) (q : Nat) :
    bitRead (bitWrite buf p b) q = if q = p ∧ q < bitLen buf then b else bitRead buf q := by
  by_cases hp : p < bitLen buf
  · by_cases hq : q < bitLen buf
    · have hpl : p / 8 < buf.length := by unfold bitLen at hp; omega
      have hql : q / 8 < buf.length := by unfold bitLen at hq; omega
      have e1 : bitRead (bitWrite buf p b) q
          = ((buf.set (p / 8) (setBit (buf.getD (p / 8) 0) (p % 8) b)).getD (q / 8) 0).getLsbD (q % 8) := by
        unfold bitRead
        rw [bitLen_bitWrite, if_pos hq]
        simp [bitWrite, hp]
      have e2 : bitRead buf q = (buf.getD (q / 8) 0).getLsbD (q % 8) := by simp [bitRead, hq]
      rw [e1, e2]
      by_cases hb : q / 8 = p / 8
      · rw [hb]
        have : (buf.set (p / 8) (setBit (buf.getD (p / 8) 0) (p % 8) b)).getD (p / 8) 0
            = setBit (buf.getD (p / 8) 0) (p % 8) b := by
          simp [List.getD, hpl]
        rw [this, getLsbD_setBit _ _ _ (Nat.mod_lt _ (by decide))]
        have : q % 8 = p % 8 ↔ q = p := by omega
        simp [this, hq]
      · have : (buf.set (p / 8) (setBit (buf.getD (p / 8) 0) (p % 8) b)).getD (q / 8) 0 = buf.getD (q / 8) 0 := by
          simp [List.getD, Ne.symm hb]
        have hne : q ≠ p := by rintro rfl; exact hb rfl
        rw [this]; simp [hne]
    · rw [bitRead_beyond (by simpa using Nat.not_lt.mp hq), bitRead_beyond (Nat.not_lt.mp hq)]
      simp [hq]
  · rw [bitWrite_beyond b (Nat.not_lt.mp hp)]
    by_cases h : q = p
    · subst h; simp [hp]
    · simp [h]

/-- The bits of a window (R8, R31, R33). -/
theorem getLsbD_memRead (buf : Buffer) (addr n i : Nat) (hn : n ≤ 32) :
    (memRead buf addr n).getLsbD i = (decide (i < n) && bitRead buf (addr + i)) := by
  induction n with
  | zero => simp [memRead]
  | succ n ih =>
    rw [memRead, BitVec.getLsbD_or, ih (by omega), BitVec.getLsbD_shiftLeft]
    by_cases h1 : i < n
    · have : i < 32 := by omega
      simp [h1, Nat.lt_succ_of_lt h1]
    · by_cases h2 : i = n
      · subst h2
        have : i < 32 := by omega
        simp [this]
      · have h3 : ¬ i < n + 1 := by omega
        have h4 : i - n ≠ 0 := by omega
        simp [h1, h3, BitVec.getLsbD_setWidth]
        intros; omega

@[simp] theorem length_memWrite (buf : Buffer) (addr : Nat) (v : Word) (n : Nat) :
    (memWrite buf addr v n).length = buf.length := by
  induction n with
  | zero => rfl
  | succ n ih => simp [memWrite, ih]

@[simp] theorem bitLen_memWrite (buf : Buffer) (addr : Nat) (v : Word) (n : Nat) :
    bitLen (memWrite buf addr v n) = bitLen buf := by
  simp [bitLen]

/-- A bit after a window's write (R34, R40): the value's bit inside the window, the old bit outside. -/
theorem bitRead_memWrite (buf : Buffer) (addr : Nat) (v : Word) (n q : Nat) :
    bitRead (memWrite buf addr v n) q
      = if addr ≤ q ∧ q < addr + n ∧ q < bitLen buf then v.getLsbD (q - addr) else bitRead buf q := by
  induction n with
  | zero =>
    have : ¬ (addr ≤ q ∧ q < addr + 0 ∧ q < bitLen buf) := by omega
    rw [if_neg this]; rfl
  | succ n ih =>
    rw [memWrite, bitRead_bitWrite, bitLen_memWrite, ih]
    by_cases hq : q = addr + n
    · subst hq
      by_cases hl : addr + n < bitLen buf
      · simp [hl]
      · have : ¬ (addr ≤ addr + n ∧ addr + n < addr + n ∧ addr + n < bitLen buf) := by omega
        simp [hl]
    · have e : (addr ≤ q ∧ q < addr + (n + 1) ∧ q < bitLen buf) ↔ (addr ≤ q ∧ q < addr + n ∧ q < bitLen buf) := by
        omega
      simp only [hq, false_and, if_false, e]

/-- Two buffers of one length with the same bits are the same buffer. -/
theorem buffer_ext {x y : Buffer} (hl : x.length = y.length) (h : ∀ p, bitRead x p = bitRead y p) : x = y := by
  refine List.ext_getElem hl fun k hx hy => ?_
  refine BitVec.eq_of_getLsbD_eq fun i hi => ?_
  have hk : 8 * k + i < bitLen x := by unfold bitLen; omega
  have hk' : 8 * k + i < bitLen y := by unfold bitLen; omega
  have e := h (8 * k + i)
  have d : (8 * k + i) / 8 = k := by omega
  have m : (8 * k + i) % 8 = i := by omega
  simp only [bitRead, hk, hk', if_true, d, m] at e
  simpa [List.getD, List.getElem?_eq_getElem hx, List.getElem?_eq_getElem hy] using e

/-- READSEGMENTS gives one value a field (R111). -/
@[simp] theorem length_readFields (buf : Buffer) (cursor : Nat) (shape : List Nat) :
    (readFields buf cursor shape).length = shape.length := by
  induction shape generalizing cursor with
  | nil => rfl
  | cons w shape ih => simp [readFields, ih]

/-- Field `i` is the window at its start (R110, R111, R117). -/
theorem getElem?_readFields (buf : Buffer) (cursor : Nat) (shape : List Nat) (i : Nat) :
    (readFields buf cursor shape)[i]? = shape[i]?.map (memRead buf (cursor + fieldStart shape i)) := by
  induction shape generalizing cursor i with
  | nil => simp [readFields]
  | cons w shape ih =>
    cases i with
    | zero => simp [readFields, fieldStart]
    | succ i => simp [readFields, ih, fieldStart, Nat.add_assoc]

@[simp] theorem length_writeFields (buf : Buffer) (cursor : Nat) (shape : List Nat) (values : List Word) :
    (writeFields buf cursor shape values).length = buf.length := by
  induction shape generalizing buf cursor values with
  | nil => cases values <;> rfl
  | cons w shape ih => cases values <;> simp [writeFields, ih]

@[simp] theorem bitLen_writeFields (buf : Buffer) (cursor : Nat) (shape : List Nat) (values : List Word) :
    bitLen (writeFields buf cursor shape values) = bitLen buf := by
  simp [bitLen]

/-- A position before the cursor is not written by the walk (R113, R118). -/
theorem bitRead_writeFields_before (buf : Buffer) (cursor : Nat) (shape : List Nat) (values : List Word) (q : Nat)
    (h : q < cursor) : bitRead (writeFields buf cursor shape values) q = bitRead buf q := by
  induction shape generalizing buf cursor values with
  | nil => cases values <;> rfl
  | cons w shape ih =>
    cases values with
    | nil => rfl
    | cons v values =>
      rw [writeFields, ih _ _ _ (by omega), bitRead_memWrite, if_neg (by omega)]

/-- A position inside field `i` holds its value's bit, when the field has a value and the position exists (R113). -/
theorem bitRead_writeFields_field (buf : Buffer) (cursor : Nat) (shape : List Nat) (values : List Word) (i j w : Nat)
    (v : Word) (hw : shape[i]? = some w) (hv : values[i]? = some v) (hj : j < w)
    (hl : cursor + fieldStart shape i + j < bitLen buf) :
    bitRead (writeFields buf cursor shape values) (cursor + fieldStart shape i + j) = v.getLsbD j := by
  induction shape generalizing buf cursor values i with
  | nil => simp at hw
  | cons w' shape ih =>
    cases values with
    | nil => simp at hv
    | cons v' values =>
      cases i with
      | zero =>
        simp only [List.getElem?_cons_zero, Option.some.injEq] at hw hv
        subst hw hv
        simp only [fieldStart, List.take_zero, List.sum_nil, Nat.add_zero] at hl ⊢
        rw [writeFields, bitRead_writeFields_before _ _ _ _ _ (by omega), bitRead_memWrite, if_pos (by omega)]
        congr 1; omega
      | succ i =>
        have e : cursor + fieldStart (w' :: shape) (i + 1) + j = cursor + w' + fieldStart shape i + j := by
          simp [fieldStart, Nat.add_assoc]
        rw [e] at hl ⊢
        rw [writeFields]
        exact ih _ _ _ _ (by simpa using hw) (by simpa using hv) (by simpa using hl)

/-- A position at or beyond the end of the last field that has a value keeps its bit (R113, R114). -/
theorem bitRead_writeFields_after (buf : Buffer) (cursor : Nat) (shape : List Nat) (values : List Word) (q : Nat)
    (h : cursor + fieldStart shape values.length ≤ q) :
    bitRead (writeFields buf cursor shape values) q = bitRead buf q := by
  induction shape generalizing buf cursor values with
  | nil => cases values <;> rfl
  | cons w shape ih =>
    cases values with
    | nil => rfl
    | cons v values =>
      have e : cursor + fieldStart (w :: shape) (v :: values).length = cursor + w + fieldStart shape values.length := by
        simp [fieldStart, Nat.add_assoc]
      rw [e] at h
      rw [writeFields, ih _ _ _ h, bitRead_memWrite, if_neg (by omega)]

/-- One field more is one window write more, at the end of the fields before (41_segmentcodec.md R113). -/
theorem writeFields_append (buf : Buffer) (cursor : Nat) (shape : List Nat) (values : List Word) (w : Nat) (v : Word)
    (h : values.length = shape.length) :
    writeFields buf cursor (shape ++ [w]) (values ++ [v]) =
      memWrite (writeFields buf cursor shape values) (cursor + shape.sum) v w := by
  induction shape generalizing buf cursor values with
  | nil =>
    cases values with
    | nil => simp [writeFields]
    | cons => simp at h
  | cons x xs ih =>
    cases values with
    | nil => simp at h
    | cons y ys =>
      simp only [List.cons_append, writeFields]
      rw [ih _ _ _ (by simpa using h)]
      simp [Nat.add_assoc]

end Sys2Proof.Machine
end

