-- ==== Sys2Proof/Laws/Decode.lean ====
section
/-! SUPPORT. What decode and issue can answer, said once. -/

namespace Sys2Proof

/-- Decoding names the selector's operation, or rejects a reserved selector (30_encoding.md R70, R72). -/
theorem decode_cases (op : BitVec 4) (o : Operands) :
    (∃ i, decode op o = .ok i ∧ selector i = op ∧ op.toNat < 10) ∨
    (decode op o = .error (.reservedSelector op) ∧ 10 ≤ op.toNat) := by
  obtain ⟨⟨n, hn⟩⟩ := op
  have hn : n < 16 := hn
  interval_cases n
  all_goals first
    | exact .inl ⟨_, rfl, rfl, Nat.lt_of_sub_ne_zero (by intro h; cases h)⟩
    | exact .inr ⟨rfl, Nat.le_of_ble_eq_true rfl⟩

/-- A decoded operation has the selector it was decoded from. -/
theorem selector_of_decode {op : BitVec 4} {o : Operands} {i : Instr} (h : decode op o = .ok i) :
    selector i = op ∧ op.toNat < 10 := by
  rcases decode_cases op o with ⟨j, hj, hs, hl⟩ | ⟨he, _⟩
  · rw [h] at hj
    cases hj
    exact ⟨hs, hl⟩
  · rw [h] at he
    cases he

end Sys2Proof

namespace Sys2Proof.Machine

/-- An issued operation has its request's selector. -/
theorem selector_of_issue {m : Memory} {r : Request} {i : Instr} (h : issue m r = .ok i) :
    selector i = r.op ∧ r.op.toNat < 10 :=
  selector_of_decode h

end Sys2Proof.Machine
end

