-- ==== Sys2Proof/Laws/Exec.lean ====
section
/-! SUPPORT. What each meaning can do, said once: the PortLimit refusal, a refusal of its own, or its one response. -/

namespace Sys2Proof.Machine

/-- On an instance whose ports take the operands, a meaning stands alone (R6). -/
theorem atPort_admitted {s : State} {i : Instr} {o : Host.Outcome State Fault Refusal}
    (h : portAdmits s.config i = true) : atPort s i o = o := by
  simp [atPort, h]

/-- Operands that do not fit a port are refused (R193). -/
theorem atPort_refused {s : State} {i : Instr} {o : Host.Outcome State Fault Refusal}
    (h : portAdmits s.config i = false) : atPort s i o = .refused .portLimit := by
  simp [atPort, h]

/-- A next state behind a port is the meaning's. -/
theorem atPort_eq_next {s t : State} {i : Instr} {o : Host.Outcome State Fault Refusal} (h : atPort s i o = .next t) :
    portAdmits s.config i = true ∧ o = .next t := by
  unfold atPort at h
  split at h
  · exact ⟨‹_›, h⟩
  · cases h

/-- The default configuration has no port limits (R6, R193: PortLimit never arises in the unbounded model). -/
theorem portAdmits_unbounded {c : Config} (h1 : c.lMax = none) (h2 : c.idxW = none) (h3 : c.shapeMax = none)
    (h4 : c.nameMax = none) (i : Instr) : portAdmits c i = true := by
  cases i <;> simp [portAdmits, within, shapeFits, posFits, h1, h2, h3, h4]

/-- What the block answers an operation it performs, with `draw` the number of the next free value. -/
def answerOf (c : Config) (draw : Nat) : Instr → Response
  | .readBits buf a b => .result (readWindow buf a b)
  | .setBits buf v offset width => .buffer (writeWindow buf v offset width)
  | .readSegments buf shape => .values (readFields buf 0 shape)
  | .writeSegments buf shape vs => .buffer (writeFields buf 0 shape vs)
  | .decodeFloat18 code => .value (floatOfCode code)
  | .encodeFloat18 v => .code (codeOfFloat draw v)
  | .readPacket buf => .packet (packetOfFrame buf)
  | .writePacket p => .buffer (frameOfPacket draw p)
  | .typeToString tcode => typeNameResponse (nameOfCode c.typeTable tcode)
  | .stringToType name => typeCodeResponse (codeOfName c.typeTable name)

/-- The free values an operation takes. -/
def drawCount : Instr → Nat
  | .readBits .. => 0
  | .setBits .. => 0
  | .readSegments .. => 0
  | .writeSegments .. => 0
  | .decodeFloat18 _ => 0
  | .encodeFloat18 v => drawsOf v
  | .readPacket _ => 0
  | .writePacket p => packetDraws p
  | .typeToString _ => 0
  | .stringToType _ => 0

/-- The refusal of a meaning behind its port, for operands outside the domain (R195); the last six operations have no
such operands. -/
def domainRefusal : Instr → Refusal
  | .readBits .. => .windowTooWide
  | .setBits .. => .windowTooWide
  | .readSegments .. => .badShapeEntry
  | .writeSegments _ shape _ => if shapeOk shape then .valueCountMismatch else .badShapeEntry
  | .decodeFloat18 _ => .portLimit
  | .encodeFloat18 _ => .portLimit
  | .readPacket _ => .portLimit
  | .writePacket _ => .portLimit
  | .typeToString _ => .portLimit
  | .stringToType _ => .portLimit

/-- Everything exec can do, for every operation: the port, the domain, the one response. -/
theorem exec_eq (i : Instr) (s : State) :
    exec i s =
      if portAdmits s.config i then
        if i.wf then .next ((s.answer (answerOf s.config s.draws i)).drawn (drawCount i))
        else .refused (domainRefusal i)
      else .refused .portLimit := by
  cases i with
  | readBits buf a b =>
    have e : windowWidth a b ≤ 32 ↔ max a b - min a b < 32 := by unfold windowWidth; omega
    simp [exec, execReadBits, atPort, Instr.wf, answerOf, drawCount, domainRefusal, e]
  | setBits buf v offset width =>
    simp [exec, execSetBits, atPort, Instr.wf, answerOf, drawCount, domainRefusal]
  | readSegments buf shape =>
    by_cases h : shapeOk shape = true <;>
      simp [exec, execReadSegments, atPort, Instr.wf, answerOf, drawCount, domainRefusal, h]
  | writeSegments buf shape vs =>
    by_cases h1 : shapeOk shape = true <;> by_cases h2 : vs.length ≤ shape.length <;>
      simp [exec, execWriteSegments, atPort, Instr.wf, answerOf, drawCount, domainRefusal, h1, h2]
  | decodeFloat18 code => simp [exec, execDecodeFloat18, atPort, Instr.wf, answerOf, drawCount]
  | encodeFloat18 v => simp [exec, execEncodeFloat18, atPort, Instr.wf, answerOf, drawCount]
  | readPacket buf => simp [exec, execReadPacket, atPort, Instr.wf, answerOf, drawCount]
  | writePacket p => simp [exec, execWritePacket, atPort, Instr.wf, answerOf, drawCount]
  | typeToString tcode => simp [exec, execTypeToString, atPort, Instr.wf, answerOf, drawCount]
  | stringToType name => simp [exec, execStringToType, atPort, Instr.wf, answerOf, drawCount]

/-- The inversion of exec: a next state is one response more, and the draws taken. -/
theorem exec_eq_next {i : Instr} {s t : State} (h : exec i s = .next t) :
    portAdmits s.config i = true ∧ i.wf = true ∧
      t = (s.answer (answerOf s.config s.draws i)).drawn (drawCount i) := by
  rw [exec_eq] at h
  split at h
  · split at h
    · exact ⟨‹_›, ‹_›, by simpa using h.symm⟩
    · cases h
  · cases h

/-- An operation on its domain, at ports that take it, completes. -/
theorem exec_completes {i : Instr} {s : State} (hp : portAdmits s.config i = true) (hw : i.wf = true) :
    exec i s = .next ((s.answer (answerOf s.config s.draws i)).drawn (drawCount i)) := by
  rw [exec_eq, if_pos hp, if_pos hw]

/-- Everything step can do: idle, or the next request decoded, performed and its buffer kept. -/
theorem step_eq_next {s t : State} (h : step s = .next t) :
    (s.pending = [] ∧ t = s) ∨
    ∃ r rest i u, s.pending = r :: rest ∧ issue s.mem r = .ok i ∧ hasRace (simultaneous s.pending) = false ∧
      exec i { s with pending := rest } = .next u ∧ t = u.keep r.dst := by
  unfold step at h
  split at h
  · rename_i hp; exact .inl ⟨hp, by simpa using h.symm⟩
  · rename_i r rest hp
    split at h
    · cases h
    · rename_i i hi
      split at h
      · cases h
      · rename_i hr
        obtain ⟨u, hu, ht⟩ := deliver_eq_next h
        exact .inr ⟨r, rest, i, u, hp, hi, by rw [hp]; simpa using hr, hu, ht⟩

end Sys2Proof.Machine
end

