-- ==== Sys2Proof/Laws/Float.lean ====
section
/-! SUPPORT. The fields of f32 words and Minifloat18 codes as arithmetic, and the exact value as the scaled magnitude. -/

namespace Sys2Proof.Machine

theorem codeSign_eq (c : Code18) : codeSign c = c.toNat / 131072 := by
  have := c.isLt
  simp only [codeSign, slice]
  omega

theorem codeExp_eq (c : Code18) : codeExp c = c.toNat / 4096 % 32 := rfl

theorem codeMantissa_eq (c : Code18) : codeMantissa c = c.toNat % 4096 := by
  simp [codeMantissa, slice]

theorem f32Sign_eq (w : F32) : f32Sign w = w.toNat / 2147483648 := by
  have := w.isLt
  simp only [f32Sign, slice]
  omega

theorem f32Exp_eq (w : F32) : f32Exp w = w.toNat / 8388608 % 256 := rfl

theorem f32Frac_eq (w : F32) : f32Frac w = w.toNat % 8388608 := by
  simp [f32Frac, slice]

theorem codeSign_lt (c : Code18) : codeSign c < 2 := by
  have := c.isLt; rw [codeSign_eq]; omega

theorem codeExp_lt (c : Code18) : codeExp c < 32 := by rw [codeExp_eq]; omega

theorem codeMantissa_lt (c : Code18) : codeMantissa c < 4096 := by rw [codeMantissa_eq]; omega

theorem f32Sign_lt (w : F32) : f32Sign w < 2 := by
  have := w.isLt; rw [f32Sign_eq]; omega

theorem f32Exp_lt (w : F32) : f32Exp w < 256 := by rw [f32Exp_eq]; omega

theorem f32Frac_lt (w : F32) : f32Frac w < 8388608 := by rw [f32Frac_eq]; omega

/-- A code is its three fields (R62). -/
theorem packCode_fields (c : Code18) : packCode (codeSign c) (codeExp c) (codeMantissa c) = c := by
  have := c.isLt
  apply BitVec.eq_of_toNat_eq
  rw [packCode, BitVec.toNat_ofNat, codeSign_eq, codeExp_eq, codeMantissa_eq]
  omega

/-- An f32 word is its three fields (R64). -/
theorem packF32_fields (w : F32) : packF32 (f32Sign w) (f32Exp w) (f32Frac w) = w := by
  have := w.isLt
  apply BitVec.eq_of_toNat_eq
  rw [packF32, BitVec.toNat_ofNat, f32Sign_eq, f32Exp_eq, f32Frac_eq]
  omega

/-- The fields of a packed code, no carry between them (R145). -/
theorem fields_packCode {s e m : Nat} (hs : s < 2) (he : e < 32) (hm : m < 4096) :
    codeSign (packCode s e m) = s ∧ codeExp (packCode s e m) = e ∧ codeMantissa (packCode s e m) = m := by
  rw [codeSign_eq, codeExp_eq, codeMantissa_eq, packCode, BitVec.toNat_ofNat]
  omega

/-- The fields of a packed f32 word. -/
theorem fields_packF32 {s e f : Nat} (hs : s < 2) (he : e < 256) (hf : f < 8388608) :
    f32Sign (packF32 s e f) = s ∧ f32Exp (packF32 s e f) = e ∧ f32Frac (packF32 s e f) = f := by
  rw [f32Sign_eq, f32Exp_eq, f32Frac_eq, packF32, BitVec.toNat_ofNat]
  omega

/-- The fields of a decoded code (R132). -/
theorem fields_floatOfCode (c : Code18) :
    f32Sign (floatOfCode c) = codeSign c ∧ f32Exp (floatOfCode c) = codeExp c + 112 ∧
      f32Frac (floatOfCode c) = codeMantissa c * 2048 := by
  have h1 := codeSign_lt c
  have h2 := codeExp_lt c
  have h3 := codeMantissa_lt c
  exact fields_packF32 h1 (by omega) (by omega)

/-- The exact value of a finite f32 is its sign and its scaled magnitude (R64). -/
theorem f32Real_eq_scaled (w : F32) : f32Real w = (-1) ^ f32Sign w * ((f32Scaled w : ℚ) / 2 ^ 149) := by
  unfold f32Real f32Scaled
  by_cases h : f32Exp w = 0
  · simp only [h, if_true]
    rw [zpow_neg, mul_assoc, div_eq_mul_inv]
    norm_cast
  · simp only [h, if_false]
    obtain ⟨e, he⟩ : ∃ e, f32Exp w = e + 1 := ⟨f32Exp w - 1, by omega⟩
    rw [he, Nat.add_sub_cancel, mul_assoc]
    congr 1
    have h2 : (2 : ℚ) ≠ 0 := by norm_num
    have : ((e + 1 : ℕ) : ℤ) - 127 = (e : ℤ) + 23 - 149 := by push_cast; ring
    rw [this, zpow_sub₀ h2, zpow_add₀ h2]
    push_cast
    rw [zpow_natCast]
    norm_num
    ring

/-- A magnitude in the range of the ordinary path has its binary logarithm there (R136). -/
theorem quantise_ordinary {m : Nat} (h1 : 2 ^ 134 ≤ m) (h2 : m < 2 ^ 166) :
    134 ≤ Nat.log2 m ∧ Nat.log2 m < 166 ∧
      quantise m = (Nat.log2 m + 15 - 149, m * 4096 / 2 ^ Nat.log2 m - 4096) := by
  have hm : m ≠ 0 := by have : 0 < 2 ^ 134 := by positivity
                        omega
  refine ⟨(Nat.le_log2 hm).mpr h1, (Nat.log2_lt hm).mpr h2, ?_⟩
  simp only [quantise, if_neg (Nat.not_le.mpr h2), if_neg (Nat.not_lt.mpr h1)]

end Sys2Proof.Machine
end

