-- ==== Sys2Proof/Laws/Memory.lean ====
section
/-! SUPPORT. The laws of the caller's memory: read after write, writes elsewhere, and that the canonical form is kept. -/

namespace Sys2Proof.Machine

@[simp] theorem Memory.wf_nil : Memory.wf [] = true := rfl

/-- The canonical form, one listed buffer at a time. -/
theorem Memory.wf_cons {k : Nat} {b : Buffer} {rest : Memory} :
    Memory.wf ((k, b) :: rest) = true ↔ b ≠ [] ∧ (∀ e ∈ rest, k < e.1) ∧ Memory.wf rest = true := by
  simp [Memory.wf, and_assoc]

@[simp] theorem Memory.read_nil (k : Nat) : Memory.read [] k = [] := rfl

/-- A number below every listed one holds the empty buffer. -/
theorem Memory.read_below {m : Memory} {k : Nat} (h : ∀ e ∈ m, k < e.1) : m.read k = [] := by
  induction m with
  | nil => rfl
  | cons e rest ih =>
    obtain ⟨j, b⟩ := e
    have hk : k < j := h (j, b) (by simp)
    simp only [Memory.read, if_neg (Nat.ne_of_gt hk)]
    exact ih fun e he => h e (by simp [he])

/-- What a number holds after a write (20_memory.md R42, R45): the written number the written buffer, any other what it held. -/
theorem Memory.read_write {m : Memory} (hm : m.wf = true) (k : Nat) (b : Buffer) (j : Nat) :
    (m.write k b).read j = if j = k then b else m.read j := by
  induction m with
  | nil =>
    by_cases hb : b = []
    · simp [Memory.write, hb]
    · simp only [Memory.write, hb, if_false, Memory.read]
      by_cases h : j = k
      · simp [h]
      · simp [h, Ne.symm h]
  | cons e rest ih =>
    obtain ⟨i, x⟩ := e
    obtain ⟨hx, hlt, hr⟩ := Memory.wf_cons.mp hm
    have ih := ih hr
    unfold Memory.write
    split
    · rename_i hki
      have hbelow : Memory.read ((i, x) :: rest) k = [] :=
        Memory.read_below fun e he => by
          rcases List.mem_cons.mp he with rfl | he
          · exact hki
          · exact Nat.lt_trans hki (hlt e he)
      split
      · rename_i hb
        by_cases h : j = k
        · rw [h, if_pos rfl, hbelow, hb]
        · rw [if_neg h]
      · by_cases h : j = k
        · simp [Memory.read, h]
        · simp only [Memory.read, if_neg (Ne.symm h), if_neg h]
    · split
      · rename_i hki
        subst hki
        split
        · rename_i hb
          by_cases h : j = k
          · rw [if_pos h, h, hb]; exact Memory.read_below hlt
          · simp [Memory.read, h, Ne.symm h]
        · by_cases h : j = k
          · simp [Memory.read, h]
          · simp [Memory.read, h, Ne.symm h]
      · rename_i hki
        simp only [Memory.read, ih]
        by_cases h : i = j
        · subst h; simp [Ne.symm hki]
        · simp [h]

/-- Every number listed after a write was listed before, or is the written one. -/
theorem Memory.mem_write {m : Memory} {k : Nat} {b : Buffer} {e : Nat × Buffer} (h : e ∈ m.write k b) :
    e ∈ m ∨ e.1 = k := by
  induction m with
  | nil =>
    by_cases hb : b = []
    · simp [Memory.write, hb] at h
    · simp only [Memory.write, hb, if_false, List.mem_singleton] at h
      exact .inr (by rw [h])
  | cons e' rest ih =>
    obtain ⟨i, x⟩ := e'
    unfold Memory.write at h
    split at h
    · split at h
      · exact .inl h
      · rcases List.mem_cons.mp h with rfl | h
        · exact .inr rfl
        · exact .inl h
    · split at h
      · split at h
        · exact .inl (List.mem_cons_of_mem _ h)
        · rcases List.mem_cons.mp h with rfl | h
          · exact .inr rfl
          · exact .inl (List.mem_cons_of_mem _ h)
      · rcases List.mem_cons.mp h with rfl | h
        · exact .inl (by simp)
        · rcases ih h with h | h
          · exact .inl (List.mem_cons_of_mem _ h)
          · exact .inr h

/-- A write keeps the canonical form. -/
theorem Memory.wf_write {m : Memory} (hm : m.wf = true) (k : Nat) (b : Buffer) : (m.write k b).wf = true := by
  induction m with
  | nil =>
    by_cases hb : b = []
    · simp [Memory.write, hb]
    · simp [Memory.write, hb, Memory.wf]
  | cons e rest ih =>
    obtain ⟨i, x⟩ := e
    obtain ⟨hx, hlt, hr⟩ := Memory.wf_cons.mp hm
    unfold Memory.write
    split
    · rename_i hki
      split
      · exact hm
      · rename_i hb
        refine Memory.wf_cons.mpr ⟨hb, fun e he => ?_, hm⟩
        rcases List.mem_cons.mp he with rfl | he
        · exact hki
        · exact Nat.lt_trans hki (hlt e he)
    · split
      · rename_i hki
        subst hki
        split
        · exact hr
        · rename_i hb
          exact Memory.wf_cons.mpr ⟨hb, hlt, hr⟩
      · refine Memory.wf_cons.mpr ⟨hx, fun e he => ?_, ih hr⟩
        rcases Memory.mem_write he with he | he
        · exact hlt e he
        · omega

/-- Two canonical memories that hold the same buffers are equal. -/
theorem Memory.ext {m n : Memory} (hm : m.wf = true) (hn : n.wf = true) (h : ∀ k, m.read k = n.read k) : m = n := by
  induction m generalizing n with
  | nil =>
    cases n with
    | nil => rfl
    | cons e rest =>
      obtain ⟨i, x⟩ := e
      have := h i
      simp only [Memory.read, if_true] at this
      exact absurd this.symm (Memory.wf_cons.mp hn).1
  | cons e rest ih =>
    obtain ⟨i, x⟩ := e
    obtain ⟨hx, hlt, hr⟩ := Memory.wf_cons.mp hm
    cases n with
    | nil =>
      have := h i
      simp only [Memory.read, if_true] at this
      exact absurd this hx
    | cons e' rest' =>
      obtain ⟨j, y⟩ := e'
      obtain ⟨hy, hlt', hr'⟩ := Memory.wf_cons.mp hn
      have hij : i = j := by
        rcases Nat.lt_trichotomy i j with hij | hij | hij
        · have := h i
          simp only [Memory.read, if_true, if_neg (Nat.ne_of_gt hij)] at this
          rw [Memory.read_below fun e he => Nat.lt_trans hij (hlt' e he)] at this
          exact absurd this hx
        · exact hij
        · have := h j
          simp only [Memory.read, if_true, if_neg (Nat.ne_of_gt hij)] at this
          rw [Memory.read_below fun e he => Nat.lt_trans hij (hlt e he)] at this
          exact absurd this.symm hy
      subst hij
      have hxy : x = y := by simpa [Memory.read] using h i
      subst hxy
      have : rest = rest' := by
        refine ih hr hr' fun k => ?_
        have hk := h k
        by_cases hki : i = k
        · subst hki
          rw [Memory.read_below hlt, Memory.read_below hlt']
        · simpa [Memory.read, hki] using hk
      rw [this]

/-- Keeping a returned buffer keeps the canonical form. -/
theorem State.keep_wf {s : State} (h : s.mem.wf = true) (d : Option Nat) : (s.keep d).mem.wf = true := by
  rcases s.keep_mem_cases d with e | ⟨k, b, _, _, _, e⟩ <;> rw [e]
  · exact h
  · exact Memory.wf_write h k b

theorem State.resetWith_wf (c : Config) : (State.resetWith c).mem.wf = true := rfl

end Sys2Proof.Machine
end

