-- ==== Sys2Proof/Laws/Quantise.lean ====
section
/-! SUPPORT. The quantiser in exact arithmetic: signs, magnitudes, thresholds, and the fields it packs (42_minifloat18.md). -/

namespace Sys2Proof.Machine

/-- A code's bit 17 is its sign (30_encoding.md R62). -/
theorem codeSign_bit (c : Code18) : c.getLsbD 17 = decide (codeSign c = 1) := by
  have := codeSign_lt c
  rw [codeSign_eq] at *
  rw [BitVec.getLsbD, Nat.testBit_eq_decide_div_mod_eq]
  have e : c.toNat / 2 ^ 17 % 2 = c.toNat / 131072 := by omega
  rw [e]

/-- A word's bit 31 is its sign (R64). -/
theorem f32Sign_bit (w : F32) : w.getLsbD 31 = decide (f32Sign w = 1) := by
  have := f32Sign_lt w
  rw [f32Sign_eq] at *
  rw [BitVec.getLsbD, Nat.testBit_eq_decide_div_mod_eq]
  have e : w.toNat / 2 ^ 31 % 2 = w.toNat / 2147483648 := by omega
  rw [e]

/-- A decoded code is finite (R132). -/
theorem finite_floatOfCode (c : Code18) : f32IsFinite (floatOfCode c) = true := by
  have h := (fields_floatOfCode c).2.1
  have := codeExp_lt c
  simp [f32IsFinite, h]; omega

/-- The scaled magnitude of a decoded code (R130, R131). -/
theorem scaled_floatOfCode (c : Code18) :
    f32Scaled (floatOfCode c) = (4096 + codeMantissa c) * 2 ^ (codeExp c + 122) := by
  obtain ⟨_, h2, h3⟩ := fields_floatOfCode c
  unfold f32Scaled
  rw [h2, h3, if_neg (by omega)]
  have : codeExp c + 112 - 1 + 11 = codeExp c + 122 := by omega
  rw [← this, Nat.pow_add]
  have e : codeExp c + 112 - 1 + 11 - 11 = codeExp c + 112 - 1 := by omega
  ring

/-- The exact value of a decoded code: R130's dyadic rational. -/
theorem real_floatOfCode (c : Code18) :
    f32Real (floatOfCode c) = (-1) ^ codeSign c * (((4096 + codeMantissa c : ℕ) : ℚ) * 2 ^ codeExp c / 2 ^ 27) := by
  rw [f32Real_eq_scaled, scaled_floatOfCode, (fields_floatOfCode c).1]
  push_cast
  rw [pow_add]
  have : (2:ℚ) ^ 149 = 2 ^ 122 * 2 ^ 27 := by rw [← pow_add]
  rw [this]
  field_simp

/-- No code decodes to zero (R133). -/
theorem scaled_floatOfCode_pos (c : Code18) :
    0 < f32Scaled (floatOfCode c) := by rw [scaled_floatOfCode]; positivity

/-- The magnitude of a finite value is its scaled magnitude over 2^149. -/
theorem abs_real (w : F32) : |f32Real w| = (f32Scaled w : ℚ) / 2 ^ 149 := by
  rw [f32Real_eq_scaled, abs_mul, abs_pow, abs_neg, abs_one, one_pow, one_mul, abs_of_nonneg (by positivity)]

/-- A value is negative exactly when its sign is set and it is not zero (R140). -/
theorem real_neg_iff (w : F32) : f32Real w < 0 ↔ f32Sign w = 1 ∧ f32Scaled w ≠ 0 := by
  rw [f32Real_eq_scaled]
  have := f32Sign_lt w
  rcases (by omega : f32Sign w = 0 ∨ f32Sign w = 1) with h | h <;> rw [h]
  · simp; positivity
  · simp [Nat.pos_iff_ne_zero]

/-- The lower clamp's threshold on the scaled magnitude (R139). -/
theorem low_threshold (w : F32) : 2 ^ (-15 : ℤ) ≤ |f32Real w| ↔ 2 ^ 134 ≤ f32Scaled w := by
  rw [abs_real, le_div_iff₀ (by positivity)]
  have : (2:ℚ) ^ (-15:ℤ) * 2 ^ 149 = ((2 ^ 134 : ℕ) : ℚ) := by norm_num
  rw [this, Nat.cast_le]

/-- The upper clamp's threshold on the scaled magnitude (R138). -/
theorem high_threshold (w : F32) : 2 ^ 17 ≤ |f32Real w| ↔ 2 ^ 166 ≤ f32Scaled w := by
  rw [abs_real, le_div_iff₀ (by positivity)]
  have : (2:ℚ) ^ 17 * 2 ^ 149 = ((2 ^ 166 : ℕ) : ℚ) := by norm_num
  rw [this, Nat.cast_le]

/-- A finite word is neither an infinity nor a NaN (R64). -/
theorem finite_not_inf {w : F32} (h : f32IsFinite w = true) : f32IsInf w = false ∧ f32IsNaN w = false := by
  simp [f32IsFinite, f32IsInf, f32IsNaN] at *; simp [h]

/-- An infinity is neither a NaN nor finite. -/
theorem inf_not_nan {w : F32} (h : f32IsInf w = true) : f32IsNaN w = false ∧ f32IsFinite w = false := by
  simp [f32IsInf, f32IsNaN, f32IsFinite] at *; simp [h]

/-- A word that is no NaN is an infinity or finite. -/
theorem not_nan_cases {w : F32} (h : f32IsNaN w = false) : f32IsInf w = true ∨ f32IsFinite w = true := by
  simp [f32IsNaN, f32IsInf, f32IsFinite] at *
  by_cases h' : f32Exp w = 255
  · left; exact ⟨h', h h'⟩
  · right; exact h'

/-- The packed sign is one bit. -/
theorem encodeSign_lt (w) : encodeSign w < 2 := by
  unfold encodeSign; split
  · decide
  · exact f32Sign_lt w

/-- The packed sign is 1 exactly below zero (R140). -/
theorem encodeSign_iff (w : F32) : encodeSign w = 1 ↔ f32Real w < 0 := by
  rw [real_neg_iff]; unfold encodeSign; split <;> simp_all

/-- A finite word's code is packed from its sign and its quantised magnitude (R136). -/
theorem codeOfNumber_finite {w : F32} (h : f32IsFinite w = true) :
  codeOfNumber w = packCode (encodeSign w) (quantise (f32Scaled w)).1 (quantise (f32Scaled w)).2 := by
  simp [codeOfNumber, (finite_not_inf h).1]

/-- Without a NaN the draw does not matter. -/
theorem codeOfFloat_notNaN {n w} (h : f32IsNaN w = false) :
    codeOfFloat n w = codeOfNumber w := by simp [codeOfFloat, h]

/-- The clamp above (R138). -/
theorem quantise_overflow {m : Nat} (h : 2 ^ 166 ≤ m) : quantise m = (31, 4095) := by
  unfold quantise; rw [if_pos h]

/-- The clamp below (R139). -/
theorem quantise_underflow {m : Nat} (h : m < 2 ^ 134) : quantise m = (0, 0) := by
  have : ¬ 2 ^ 166 ≤ m := fun h' => absurd (lt_of_le_of_lt h' h) (by norm_num)
  unfold quantise; rw [if_neg this, if_pos h]

/-- The quantised fields fit their widths (R145). -/
theorem quantise_lt (m : Nat) : (quantise m).1 < 32 ∧ (quantise m).2 < 4096 := by
  by_cases h1 : 2 ^ 166 ≤ m
  · rw [quantise_overflow h1]; decide
  by_cases h2 : m < 2 ^ 134
  · rw [quantise_underflow h2]; decide
  obtain ⟨a, b, e⟩ := quantise_ordinary (Nat.not_lt.mp h2) (Nat.not_le.mp h1)
  rw [e]
  refine ⟨by simp only; omega, ?_⟩
  have hm : m ≠ 0 := by rintro rfl; simp at h2
  have hlt : m < 2 ^ (Nat.log2 m + 1) := (Nat.log2_lt hm).mp (Nat.lt_succ_self _)
  have : m * 4096 / 2 ^ Nat.log2 m < 8192 := by
    rw [Nat.div_lt_iff_lt_mul (by positivity)]
    rw [pow_succ] at hlt; omega
  simp only; omega

/-- A power of two scaled by 2^149. -/
theorem pow_e (e : ℤ) (k : ℕ) (hk : (k:ℤ) = e + 149) : (2:ℚ) ^ e * 2 ^ 149 = ((2 ^ k : ℕ) : ℚ) := by
  have : (2:ℚ) ^ 149 = 2 ^ (149:ℤ) := by norm_cast
  rw [this, ← zpow_add₀ (by norm_num), ← hk]; push_cast; rw [zpow_natCast]

/-- A value with binary exponent `e` has a scaled magnitude with binary logarithm `e + 149` (R136). -/
theorem scaled_range {w : F32} {e : ℤ} (h0 : -15 ≤ e) (h1 : e ≤ 16) (hl : 2 ^ e ≤ |f32Real w|)
    (hh : |f32Real w| < 2 ^ (e+1)) :
   ∃ k : ℕ, (k:ℤ) = e + 149 ∧ Nat.log2 (f32Scaled w) = k ∧ 2 ^ k ≤ f32Scaled w ∧ f32Scaled w < 2 ^ (k+1) ∧ 134 ≤ k ∧ k ≤ 165 := by
  obtain ⟨k, hk⟩ : ∃ k : ℕ, (k:ℤ) = e + 149 := ⟨(e+149).toNat, by omega⟩
  rw [abs_real, le_div_iff₀ (by positivity), pow_e e k hk, Nat.cast_le] at hl
  rw [abs_real, div_lt_iff₀ (by positivity), pow_e (e+1) (k+1) (by push_cast; omega), Nat.cast_lt] at hh
  have hm : f32Scaled w ≠ 0 := by have : 0 < 2 ^ k := by positivity
                                  omega
  refine ⟨k, hk, ?_, hl, hh, by omega, by omega⟩
  have a := (Nat.le_log2 hm).mpr hl
  have b := (Nat.log2_lt hm).mpr hh
  omega

/-- The ordinary path by its binary logarithm (R136). -/
theorem quantise_range {m k : ℕ} (hlog : Nat.log2 m = k) (hl : 2 ^ k ≤ m) (hh : m < 2 ^ (k+1)) (h1 : 134 ≤ k)
    (h2 : k ≤ 165) :
   quantise m = (k + 15 - 149, m * 4096 / 2 ^ k - 4096) := by
  have a : 2 ^ 134 ≤ m := le_trans (Nat.pow_le_pow_right (by decide) h1) hl
  have b : m < 2 ^ 166 := lt_of_lt_of_le hh (Nat.pow_le_pow_right (by decide) (by omega))
  rw [(quantise_ordinary a b).2.2, hlog]

end Sys2Proof.Machine
end

