-- ==== Sys2Proof/Laws/Window.lean ====
section
/-! SUPPORT. Windows as numbers: their range, their bits, the little-endian numbers of bytes and frames, and shapes' positions. -/

namespace Sys2Proof.Machine

/-- A window of `n` bits is below `2^n` (40_bitwindow.md R91). -/
theorem toNat_memRead_lt (buf : Buffer) (addr n : Nat) (hn : n ≤ 32) : (memRead buf addr n).toNat < 2 ^ n := by
  apply Nat.lt_pow_two_of_testBit
  intro i hi
  have := getLsbD_memRead buf addr n i hn
  rw [BitVec.getLsbD] at this
  rw [this]; simp; omega

/-- A window that starts at or beyond the end reads as 0 (20_memory.md R33). -/
theorem memRead_beyond {buf : Buffer} {a n} (hn : n ≤ 32) (h : bitLen buf ≤ a) : memRead buf a n = 0 := by
  apply BitVec.eq_of_getLsbD_eq
  intro i _
  rw [getLsbD_memRead _ _ _ _ hn, bitRead_beyond (by omega)]; simp

/-- The bits of a window as a number. -/
theorem testBit_memRead (buf : Buffer) (a n i) (hn : n ≤ 32) :
    (memRead buf a n).toNat.testBit i = (decide (i < n) && bitRead buf (a+i)) := by
  have := getLsbD_memRead buf a n i hn
  rwa [BitVec.getLsbD] at this

/-- Windows inside the first 64 positions depend on those positions only. -/
theorem memRead_congr {x y : Buffer} (h : ∀ p, p < 64 → bitRead x p = bitRead y p) {a n} (hn : n ≤ 32)
    (ha : a + n ≤ 64) :
    memRead x a n = memRead y a n := by
  apply BitVec.eq_of_getLsbD_eq
  intro i _
  rw [getLsbD_memRead _ _ _ _ hn, getLsbD_memRead _ _ _ _ hn]
  by_cases hi : i < n
  · rw [h _ (by omega)]
  · simp [hi]

/-- The little-endian number of the `k` bytes from byte `j` on; bytes beyond the end are 0. -/
def bytesNat (buf : Buffer) (j k : Nat) :
    Nat := ((List.range k).map (fun i => (buf.getD (j + i) 0).toNat * 2 ^ (8 * i))).sum

/-- One byte more is the most significant one. -/
theorem bytesNat_succ (buf j k) :
    bytesNat buf j (k+1) = 2 ^ (8*k) * (buf.getD (j+k) 0).toNat + bytesNat buf j k := by
  simp [bytesNat, List.range_succ, Nat.mul_comm, Nat.add_comm]

/-- `k` bytes are below `2^(8k)`. -/
theorem bytesNat_lt (buf j k) : bytesNat buf j k < 2 ^ (8*k) := by
  induction k with
  | zero => simp [bytesNat]
  | succ k ih =>
    rw [bytesNat_succ]
    have h := (buf.getD (j+k) 0).isLt
    have : 2 ^ (8*(k+1)) = 2 ^ (8*k) * 256 := by rw [Nat.mul_add, Nat.pow_add]
    rw [this]
    nlinarith

/-- The bits of a byte are the buffer's bits (R30). -/
theorem getD_bitRead (buf : Buffer) (q i : Nat) (hi : i < 8) :
    (buf.getD q 0).toNat.testBit i = bitRead buf (8 * q + i) := by
  unfold bitRead
  have d : (8 * q + i) / 8 = q := by omega
  have m : (8 * q + i) % 8 = i := by omega
  split
  · rw [d, m]; rfl
  · rename_i h
    have : buf.length ≤ q := by unfold bitLen at h; omega
    simp [List.getD, List.getElem?_eq_none this]

/-- The bits of a little-endian number are the buffer's bits in order (R31). -/
theorem testBit_bytesNat (buf : Buffer) (j k p : Nat) :
    (bytesNat buf j k).testBit p = (decide (p < 8*k) && bitRead buf (8*j+p)) := by
  induction k with
  | zero => simp [bytesNat]
  | succ k ih =>
    rw [bytesNat_succ, Nat.testBit_two_pow_mul_add _ (bytesNat_lt buf j k), ih]
    by_cases h : p < 8*k
    · have : p < 8*(k+1) := by omega
      simp [h, this]
    · simp only [h, if_false]
      by_cases h' : p < 8*(k+1)
      · rw [getD_bitRead _ _ _ (by omega)]
        have : 8 * (j+k) + (p - 8*k) = 8*j+p := by omega
        simp [h', this]
      · have : 8 ≤ p - 8*k := by omega
        rw [Nat.testBit_lt_two_pow (lt_of_lt_of_le (buf.getD (j+k) 0).isLt (Nat.pow_le_pow_right (by decide) this))]
        simp [h']

/-- A frame's u64 is the number of its eight bytes (30_encoding.md R61). -/
theorem frameWord_eq (buf : Buffer) : frameWord buf = bytesNat buf 0 8 := by simp [frameWord, bytesNat]

/-- A frame's u64 is below `2^64`. -/
theorem frameWord_lt (buf : Buffer) : frameWord buf < 2 ^ 64 := by rw [frameWord_eq]; exact bytesNat_lt buf 0 8

/-- The bits of a frame's u64 are the frame's bits. -/
theorem testBit_frameWord (buf : Buffer) (p : Nat) :
    (frameWord buf).testBit p = (decide (p < 64) && bitRead buf p) := by
  rw [frameWord_eq, testBit_bytesNat]; simp

/-- A window inside a frame is that slice of its u64 (R61). -/
theorem memRead_frame (buf : Buffer) (a n : Nat) (hn : n ≤ 32) (h : a + n ≤ 64) :
    (memRead buf a n).toNat = frameWord buf / 2 ^ a % 2 ^ n := by
  apply Nat.eq_of_testBit_eq
  intro i
  rw [testBit_memRead _ _ _ _ hn, Nat.testBit_mod_two_pow, Nat.testBit_div_two_pow, testBit_frameWord]
  by_cases hi : i < n
  · have : a + i < 64 := by omega
    simp [hi, this, Nat.add_comm]
  · simp [hi]

/-- Two frames with one u64 are equal. -/
theorem frame_ext {x y : Buffer} (hx : x.length = 8) (hy : y.length = 8) (h : frameWord x = frameWord y) :
    x = y := by
  refine buffer_ext (by omega) fun p => ?_
  by_cases hp : p < 64
  · have a := testBit_frameWord x p
    have b := testBit_frameWord y p
    rw [h] at a
    simpa [hp] using a.symm.trans b
  · rw [bitRead_beyond (by unfold bitLen; omega), bitRead_beyond (by unfold bitLen; omega)]

/-- A field ends at or before the shape's total (41_segmentcodec.md R110). -/
theorem take_sum_le (shape : List Nat) (i w) (h : shape[i]? = some w) : (shape.take i).sum + w ≤ shape.sum := by
  induction shape generalizing i with
  | nil => simp at h
  | cons x xs ih =>
    cases i with
    | zero => simp at h; simp [h]
    | succ i => simp at h ⊢; have := ih i h; omega

/-- Every position below the shape's total lies in a field (R110). -/
theorem field_cover (shape : List Nat) (p : Nat) (h : p < shape.sum) :
    ∃ i w j, shape[i]? = some w ∧ j < w ∧ p = (shape.take i).sum + j := by
  induction shape generalizing p with
  | nil => simp at h
  | cons x xs ih =>
    by_cases hp : p < x
    · exact ⟨0, x, p, by simp, hp, by simp⟩
    · obtain ⟨i, w, j, h1, h2, h3⟩ := ih (p - x) (by simp at h; omega)
      exact ⟨i+1, w, j, by simpa using h1, h2, by simp; omega⟩

end Sys2Proof.Machine
end

