-- ==== Sys2Proof/Laws/Packet.lean ====
section
/-! SUPPORT. The packet's fields as windows and as slices of the frame's u64, and the type table's look-ups. -/

namespace Sys2Proof.Machine

/-- The packet of a frame, window by window (43_packetframe.md R161). -/
theorem packetOfFrame_eq (buf : Buffer) : packetOfFrame buf =
    { type := memRead buf 0 3, id := memRead buf 3 7,
      data1 := floatOfCode ((memRead buf 10 18).setWidth 18),
      data2 := floatOfCode ((memRead buf 28 18).setWidth 18),
      data3 := floatOfCode ((memRead buf 46 18).setWidth 18) } := rfl

/-- A data field as a slice of the frame's u64 (30_encoding.md R61). -/
theorem code_frame (buf : Buffer) (a : Nat) (h : a + 18 ≤ 64) :
    (memRead buf a 18).setWidth 18 = BitVec.ofNat 18 (frameWord buf / 2 ^ a) := by
  apply BitVec.eq_of_toNat_eq
  rw [BitVec.toNat_setWidth, memRead_frame _ _ _ (by omega) h, BitVec.toNat_ofNat]
  simp

/-- A packet depends on the first 64 positions only (43_packetframe.md R162). -/
theorem packet_congr {x y : Buffer} (h : ∀ p, p < 64 → bitRead x p = bitRead y p) :
    packetOfFrame x = packetOfFrame y := by
  have h0 := memRead_congr h (a := 0) (n := 3) (by omega) (by omega)
  have h1 := memRead_congr h (a := 3) (n := 7) (by omega) (by omega)
  have h2 := memRead_congr h (a := 10) (n := 18) (by omega) (by omega)
  have h3 := memRead_congr h (a := 28) (n := 18) (by omega) (by omega)
  have h4 := memRead_congr h (a := 46) (n := 18) (by omega) (by omega)
  simp only [packetOfFrame_eq, h0, h1, h2, h3, h4]

/-- The u64 of a frame with given fields: side by side, nothing spilling (R164, R165). -/
theorem frameWord_frameOfFields (t i : Word) (c1 c2 c3 : Code18) : frameWord (frameOfFields t i c1 c2 c3) =
   t.toNat % 8 + i.toNat % 128 * 2 ^ 3 + c1.toNat * 2 ^ 10 + c2.toNat * 2 ^ 28 + c3.toNat * 2 ^ 46 := by
  have key : ∀ k j w v, frameShape[k]? = some w →
      [t, i, c1.setWidth 32, c2.setWidth 32, c3.setWidth 32][k]? = some v → j < w → (frameShape.take k).sum + j < 64 →
     bitRead (frameOfFields t i c1 c2 c3) ((frameShape.take k).sum + j) = v.getLsbD j := by
    intro k j w v h1 h2 h3 h4
    have := bitRead_writeFields_field zeroFrame 0 frameShape _ k j w v h1 h2 h3 (by simpa [fieldStart, bitLen, zeroFrame] using h4)
    simp only [fieldStart, Nat.zero_add] at this
    exact this
  have fld : ∀ k w v, frameShape[k]? = some w →
      [t, i, c1.setWidth 32, c2.setWidth 32, c3.setWidth 32][k]? = some v → w ≤ 32 → (frameShape.take k).sum + w ≤ 64 →
     frameWord (frameOfFields t i c1 c2 c3) / 2 ^ (frameShape.take k).sum % 2 ^ w = v.toNat % 2 ^ w := by
    intro k w v h1 h2 h3 h4
    rw [← memRead_frame _ _ _ h3 h4]
    apply Nat.eq_of_testBit_eq
    intro j
    rw [testBit_memRead _ _ _ _ h3, Nat.testBit_mod_two_pow]
    by_cases hj : j < w
    · rw [key k j w v h1 h2 hj (by omega)]; simp [hj, BitVec.getLsbD]
    · simp [hj]
  have f0 := fld 0 3 _ rfl rfl (by omega) (by decide)
  have f1 := fld 1 7 _ rfl rfl (by omega) (by decide)
  have f2 := fld 2 18 _ rfl rfl (by omega) (by decide)
  have f3 := fld 3 18 _ rfl rfl (by omega) (by decide)
  have f4 := fld 4 18 _ rfl rfl (by omega) (by decide)
  have hW := frameWord_lt (frameOfFields t i c1 c2 c3)
  have b1 := c1.isLt
  have b2 := c2.isLt
  have b3 := c3.isLt
  simp only [frameShape, List.take, List.sum_cons, List.sum_nil, BitVec.toNat_setWidth] at f0 f1 f2 f3 f4
  generalize frameWord (frameOfFields t i c1 c2 c3) = W at *
  norm_num at *
  omega

/-- A packet takes one draw for each NaN among its data (42_minifloat18.md R141). -/
theorem packetDraws_eq (p : CommPacket) : packetDraws p = ([p.data1, p.data2, p.data3].filter f32IsNaN).length := by
  simp only [packetDraws, drawsOf, List.filter]
  cases f32IsNaN p.data1 <;> cases f32IsNaN p.data2 <;> cases f32IsNaN p.data3 <;> rfl

/-- A name that is found stands beside its code in the table (43_packetframe.md R166). -/
theorem nameOfCode_mem {t : List (TypeCode × Name)} {c nm} (h : nameOfCode t c = some nm) : (c, nm) ∈ t := by
  induction t with
  | nil => cases h
  | cons e t ih =>
    simp only [nameOfCode] at h
    split at h
    · cases h; rename_i h; simp [← h]
    · exact List.mem_cons_of_mem _ (ih h)

/-- A code that is found stands beside its name in the table (R167). -/
theorem codeOfName_mem {t : List (TypeCode × Name)} {c nm} (h : codeOfName t nm = some c) : (c, nm) ∈ t := by
  induction t with
  | nil => cases h
  | cons e t ih =>
    simp only [codeOfName] at h
    split at h
    · cases h; rename_i h; simp [← h]
    · exact List.mem_cons_of_mem _ (ih h)

/-- With distinct codes every entry is found by its code (R168). -/
theorem nameOfCode_some {t : List (TypeCode × Name)} (hn : (t.map Prod.fst).Nodup) {c nm} (h : (c, nm) ∈ t) :
    nameOfCode t c = some nm := by
  induction t with
  | nil => cases h
  | cons e t ih =>
    obtain ⟨c', n'⟩ := e
    simp only [List.map_cons, List.nodup_cons] at hn
    simp only [nameOfCode]
    rcases List.mem_cons.mp h with h | h
    · cases h; simp
    · split
      · rename_i he; subst he
        exact absurd (List.mem_map_of_mem (f := Prod.fst) h) hn.1
      · exact ih hn.2 h

/-- With distinct names every entry is found by its name (R168). -/
theorem codeOfName_some {t : List (TypeCode × Name)} (hn : (t.map Prod.snd).Nodup) {c nm} (h : (c, nm) ∈ t) :
    codeOfName t nm = some c := by
  induction t with
  | nil => cases h
  | cons e t ih =>
    obtain ⟨c', n'⟩ := e
    simp only [List.map_cons, List.nodup_cons] at hn
    simp only [codeOfName]
    rcases List.mem_cons.mp h with h | h
    · cases h; simp
    · split
      · rename_i he; subst he
        exact absurd (List.mem_map_of_mem (f := Prod.snd) h) hn.1
      · exact ih hn.2 h

/-- A table as R168 asks has distinct codes and distinct names. -/
theorem wf_nodup {c : Config} (h : c.wf = true) :
    (c.typeTable.map Prod.fst).Nodup ∧ (c.typeTable.map Prod.snd).Nodup := by
  simp only [Config.wf, Bool.and_eq_true, decide_eq_true_eq] at h
  exact ⟨h.1.1.1.2, h.1.1.2⟩

end Sys2Proof.Machine
end

