-- ==== Sys2Proof/Laws/PerInstr.lean ====
section
/-! SUPPORT. Per operation: the round trip of its encoding (30_encoding.md R70, R71). -/

namespace Sys2Proof.Laws.RoundTrip

/-- Decoding an encoded operation gives it back, with every operand. -/
def Statement (i : Instr) : Prop := decode (encode i).1 (encode i).2 = .ok i

theorem readBits (buf : Buffer) (a b : Nat) : Statement (.readBits buf a b) := rfl
theorem setBits (buf : Buffer) (value : Word) (offset width : Nat) : Statement (.setBits buf value offset width) := rfl
theorem readSegments (buf : Buffer) (shape : List Nat) : Statement (.readSegments buf shape) := rfl
theorem writeSegments (buf : Buffer) (shape : List Nat) (values : List Word) :
    Statement (.writeSegments buf shape values) := rfl
theorem decodeFloat18 (code : Code18) : Statement (.decodeFloat18 code) := rfl
theorem encodeFloat18 (value : F32) : Statement (.encodeFloat18 value) := rfl
theorem readPacket (buf : Buffer) : Statement (.readPacket buf) := rfl
theorem writePacket (packet : CommPacket) : Statement (.writePacket packet) := rfl
theorem typeToString (tcode : TypeCode) : Statement (.typeToString tcode) := rfl
theorem stringToType (name : Name) : Statement (.stringToType name) := rfl

end Sys2Proof.Laws.RoundTrip
end

