-- ==== Sys2Proof/Laws/Served.lean ====
section
/-! SUPPORT. What serving a request does: the shape of a step, its effect on the caller's buffers, and one lemma per
operation that says what it answers on its domain. -/

namespace Sys2Proof.Machine

/-- The shapes of the domain (41_segmentcodec.md R115). -/
theorem shapeOk_iff (shape : List Nat) : shapeOk shape = true ↔ ∀ w ∈ shape, 1 ≤ w ∧ w ≤ 32 := by
  simp [shapeOk, widthOk]

/-- One bad entry puts a shape outside the domain. -/
theorem not_shapeOk {shape : List Nat} (h : ∃ w ∈ shape, w = 0 ∨ 32 < w) : shapeOk shape = false := by
  obtain ⟨w, hw, h⟩ := h
  rw [Bool.eq_false_iff, ne_eq, shapeOk_iff]
  intro H; have := H w hw; omega

/-- A position below one that fits the port fits it. -/
theorem posFits_mono {c : Config} {p q} (h : p ≤ q) (hq : posFits c q = true) : posFits c p = true := by
  unfold posFits at *; split at * <;> simp_all; omega

/-- Of a buffer only its length matters to the port, and of a value nothing. -/
theorem portAdmits_setBits_length {c : Config} {x y : Buffer} {v v' o w} (h : x.length = y.length) :
  portAdmits c (.setBits x v o w) = portAdmits c (.setBits y v' o w) := by simp [portAdmits, h]

/-- Reading back a written window fits the port that took the write. -/
theorem portAdmits_read_of_set {c : Config} {x y : Buffer} {v o w} (h : x.length = y.length)
  (hp : portAdmits c (.setBits x v o w) = true) : portAdmits c (.readBits y o (o + w - 1)) = true := by
  simp [portAdmits, h] at hp ⊢
  tauto

/-- Without a NaN no free value is taken (42_minifloat18.md R141). -/
theorem drawCount_zero {i : Instr} (h : carriesNaN i = false) : drawCount i = 0 := by
  cases i <;> simp_all [carriesNaN, drawCount, packetDraws, drawsOf]

/-- Without a NaN the answer does not depend on the draw counter (10_state.md R11). -/
theorem answerOf_draw {i : Instr} (h : carriesNaN i = false) (c : Config) (n m : Nat) :
    answerOf c n i = answerOf c m i := by
  cases i <;> simp_all [carriesNaN, answerOf, frameOfPacket, codeOfFloat]

/-- Only the selectors 1, 3 and 7 answer a buffer (10_state.md R20). -/
theorem selector_of_buffer {i : Instr} {c n b} (h : answerOf c n i = .buffer b) :
   selector i = 1 ∨ selector i = 3 ∨ selector i = 7 := by
  cases i <;> simp [answerOf, selector] at h ⊢
  · revert h; unfold typeNameResponse; split <;> simp
  · revert h; unfold typeCodeResponse; split <;> simp

/-- A buffer kept from an operation that answers one is a written buffer. -/
theorem dst_written {r : Request} {k} (hd : r.dst = some k) (h : r.op = 1 ∨ r.op = 3 ∨ r.op = 7) :
    k ∈ writtenBuffers r := by
  rcases h with h | h | h <;> simp [writtenBuffers, h, hd]

/-- A selector whose operation takes no buffer does not look at the operand `buf` (30_encoding.md R71). -/
theorem decode_buf_irrelevant {op : BitVec 4} (o : Operands) (b : Buffer)
    (h : op.toNat ≠ 0 ∧ op.toNat ≠ 1 ∧ op.toNat ≠ 2 ∧ op.toNat ≠ 3 ∧ op.toNat ≠ 6) :
    decode op {o with buf := b} = decode op o := by
  unfold decode; split <;> simp_all

/-- Issuing a request depends on the buffers it touches only. -/
theorem issue_congr {m m' : Memory} {r : Request} (h : ∀ k ∈ touchedBuffers r, m'.read k = m.read k) :
    issue m' r = issue m r := by
  unfold issue operandsAt
  cases hs : r.src with
  | none => rfl
  | some k =>
    simp only []
    by_cases hk : k ∈ touchedBuffers r
    · rw [h k hk]
    · have hne : r.op.toNat ≠ 0 ∧ r.op.toNat ≠ 1 ∧ r.op.toNat ≠ 2 ∧ r.op.toNat ≠ 3 ∧ r.op.toNat ≠ 6 := by
        refine ⟨?_, ?_, ?_, ?_, ?_⟩ <;> intro h <;> exact hk (by simp [touchedBuffers, h, hs])
      exact (decode_buf_irrelevant _ _ hne).trans (decode_buf_irrelevant _ _ hne).symm

/-- The inversion of a step with a request pending: the decoded operation, admitted and in its domain, adds its answer,
takes its draws, and its buffer is kept. -/
theorem step_served {s t : State} {r rest} (hp : s.pending = r :: rest) (h : step s = .next t) :
   ∃ i, issue s.mem r = .ok i ∧ hasRace (simultaneous s.pending) = false ∧ portAdmits s.config i = true ∧ i.wf = true ∧
     t = (({ s with pending := rest}.answer (answerOf s.config s.draws i)).drawn (drawCount i)).keep r.dst := by
  rcases step_eq_next h with ⟨h', _⟩ | ⟨r', rest', i, u, hp', hi, hr, he, rfl⟩
  · simp [hp] at h'
  · rw [hp] at hp'; cases hp'
    obtain ⟨h1, h2, rfl⟩ := exec_eq_next he
    exact ⟨i, hi, hr, h1, h2, rfl⟩

/-- The converse: such a request is served. -/
theorem step_serves {s : State} {r rest i} (hp : s.pending = r :: rest) (hi : issue s.mem r = .ok i)
    (hr : hasRace (simultaneous s.pending) = false)
  (h1 : portAdmits s.config i = true) (h2 : i.wf = true) :
  step s =
      .next ((({ s with pending := rest}.answer (answerOf s.config s.draws i)).drawn (drawCount i)).keep r.dst) := by
  rw [hp] at hr
  simp only [step, hp, hi, hr]
  rw [if_neg (by simp), exec_completes (s := {s with pending := rest}) h1 h2]; rfl

/-- What number `j` holds after an answer was kept as `d`, if it held `old` before. -/
def keptAt (x : Response) (d : Option Nat) (old : Buffer) (j : Nat) : Buffer :=
  match x, d with | .buffer b, some k => if j = k then b else old | _, _ => old

/-- Reading the caller's buffers after an answer was kept. -/
theorem read_keep {s : State} (hm : s.mem.wf = true) (x n) (d : Option Nat) (j : Nat) :
   (((s.answer x).drawn n).keep d).mem.read j = keptAt x d (s.mem.read j) j := by
  cases d <;> cases x <;> simp [State.keep, keptAt, State.answer, State.drawn]
  rw [Memory.read_write hm]

/-- READBITS on its domain (40_bitwindow.md R91). -/
theorem exec_readBits {s : State} {buf a b} (hp : portAdmits s.config (.readBits buf a b) = true)
    (hw : max a b - min a b < 32) :
   exec (.readBits buf a b) s = .next { s with responses := .result (readWindow buf a b) :: s.responses } := by
  rw [exec_completes hp (by simpa [Instr.wf] using hw)]; rfl

/-- SETBITS on its domain (R94). -/
theorem exec_setBits {s : State} {buf v a b} (hp : portAdmits s.config (.setBits buf v a b) = true) (hw : b ≤ 32) :
   exec (.setBits buf v a b) s = .next { s with responses := .buffer (memWrite buf a v b) :: s.responses } := by
  rw [exec_completes hp (by simpa [Instr.wf] using hw)]; rfl

/-- READSEGMENTS on its domain (41_segmentcodec.md R111). -/
theorem exec_readSegments {s : State} {buf shape} (hp : portAdmits s.config (.readSegments buf shape) = true)
    (hw : ∀ w ∈ shape, 1 ≤ w ∧ w ≤ 32) :
   exec (.readSegments buf shape) s =
      .next { s with responses := .values (readFields buf 0 shape) :: s.responses } := by
  rw [exec_completes hp (by simpa [Instr.wf] using (shapeOk_iff shape).mpr hw)]; rfl

/-- WRITESEGMENTS on its domain (R113, R114). -/
theorem exec_writeSegments {s : State} {buf shape vs} (hp : portAdmits s.config (.writeSegments buf shape vs) = true)
    (hw : ∀ w ∈ shape, 1 ≤ w ∧ w ≤ 32)
   (hl : vs.length ≤ shape.length) :
   exec (.writeSegments buf shape vs) s =
      .next { s with responses := .buffer (writeFields buf 0 shape vs) :: s.responses } := by
  rw [exec_completes hp (by simp [Instr.wf, (shapeOk_iff shape).mpr hw, hl])]; rfl

/-- DECODEFLOAT18 (42_minifloat18.md R131). -/
theorem exec_decodeFloat18 (s : State) (c : Code18) :
    exec (.decodeFloat18 c) s = .next { s with responses := .value (floatOfCode c) :: s.responses } := by
  rw [exec_completes rfl rfl]; rfl

/-- ENCODEFLOAT18 of a word that is no NaN (R136). -/
theorem exec_encodeFloat18 {s : State} {w : F32} (h : f32IsNaN w = false) :
    exec (.encodeFloat18 w) s = .next { s with responses := .code (codeOfNumber w) :: s.responses } := by
  rw [exec_completes rfl rfl]; simp [answerOf, drawCount, drawsOf, codeOfFloat, h, State.answer]

/-- READPACKET (43_packetframe.md R161). -/
theorem exec_readPacket {s : State} {buf} (hp : portAdmits s.config (.readPacket buf) = true) :
    exec (.readPacket buf) s = .next { s with responses := .packet (packetOfFrame buf) :: s.responses } := by
  rw [exec_completes hp rfl]; rfl

/-- WRITEPACKET (R164). -/
theorem exec_writePacket (s : State) (p) :
    exec (.writePacket p) s =
      .next { s with responses := .buffer (frameOfPacket s.draws p) :: s.responses, draws := s.draws + packetDraws p } := rfl

/-- TYPETOSTRING (R166). -/
theorem exec_typeToString (s c) :
    exec (.typeToString c) s =
      .next { s with responses := typeNameResponse (nameOfCode s.config.typeTable c) :: s.responses } := rfl

/-- STRINGTOTYPE (R167). -/
theorem exec_stringToType {s n} (hp : portAdmits s.config (.stringToType n) = true) :
    exec (.stringToType n) s =
      .next { s with responses := typeCodeResponse (codeOfName s.config.typeTable n) :: s.responses } := by
  rw [exec_completes hp rfl]; rfl

end Sys2Proof.Machine
end

