-- ==== Sys2Proof/Tests/Slice0.lean ====
section
/-! SUPPORT. Tests: well-formedness, decoding, the spec's vectors (95_test_vectors.md) one step at a time, and for every statement
that has hypotheses a concrete state and operands that meet them. -/

namespace Sys2Proof.Tests

open Sys2Proof.Machine

/-! ### Helpers -/

/-- The source's example frame. -/
def F : Buffer := [0xB2, 0x9D, 0x1A, 0x4E, 0xA7, 0x58, 0xEA, 0x5E]

/-- The frame shape. -/
def SH : List Nat := [3, 7, 18, 18, 18]

/-- The newest response of an outcome. -/
def answer : Host.Outcome State Fault Refusal → Option Response
  | .next t => t.responses.head?
  | .fault _ => none
  | .refused _ => none

/-- The refusal of an outcome. -/
def refusal : Host.Outcome State Fault Refusal → Option Refusal
  | .next _ => none
  | .fault _ => none
  | .refused r => some r

/-- The next state of an outcome. -/
def after : Host.Outcome State Fault Refusal → Option State
  | .next t => some t
  | .fault _ => none
  | .refused _ => none

/-- What one step from reset answers a table word. -/
def first (w : Nat) : Option Response := answer (step (State.reset.withFetchWord 8 w))

/-- A caller that holds the frame as its buffer 1 and issues the requests. -/
def caller (rs : List Request) : State := { State.reset with mem := [(1, F)], pending := rs }

/-- An instance with small ports. -/
def ports : Config := { Config.default with lMax := some 8, idxW := some 7, shapeMax := some 5, nameMax := some 5 }

/-- That instance after reset. -/
def small : State := State.resetWith ports

/-! ### Well-formedness: an ill-formed term for each check -/

theorem test_wf_readBits : (Instr.readBits [] 0 31).wf = true ∧ (Instr.readBits [] 0 32).wf = false := by decide
theorem test_wf_setBits : (Instr.setBits [] 0 0 32).wf = true ∧ (Instr.setBits [] 0 0 33).wf = false := by decide
theorem test_wf_zero_entry : (Instr.readSegments [] [3, 1]).wf = true ∧ (Instr.readSegments [] [3, 0]).wf = false := by decide
theorem test_wf_wide_entry : (Instr.readSegments [] [32]).wf = true ∧ (Instr.readSegments [] [33]).wf = false := by decide
theorem test_wf_write_shape : (Instr.writeSegments [] [0] []).wf = false ∧ (Instr.writeSegments [] [33] []).wf = false := by
  decide
theorem test_wf_too_many_values :
    (Instr.writeSegments [] [4] [1]).wf = true ∧ (Instr.writeSegments [] [4] [1, 2]).wf = false := by decide
theorem test_wf_config_codes :
    ({ Config.default with typeTable := [(2, Config.stateName), (2, [0x41])] } : Config).wf = false := by decide
theorem test_wf_config_names :
    ({ Config.default with typeTable := [(2, Config.stateName), (3, Config.stateName)] } : Config).wf = false := by decide
theorem test_wf_config_empty_name :
    ({ Config.default with typeTable := [(2, Config.stateName), (3, [])] } : Config).wf = false := by decide
theorem test_wf_config_no_state : ({ Config.default with typeTable := [(3, [0x41])] } : Config).wf = false := by decide
theorem test_wf_config_default : Config.default.wf = true ∧ ports.wf = true := by decide
theorem test_wf_memory_order : Memory.wf [(1, F), (2, [0])] = true ∧ Memory.wf [(2, F), (1, [0])] = false := by decide
theorem test_wf_memory_empty : Memory.wf [(1, [])] = false := by decide

/-! ### Decoding: the selector word of each row of R70's table, and the words R72 reserves -/

theorem test_decode_readBits : decodeTableWord 8 0b0000 = some (.readBits [] 0 0) := by decide
theorem test_decode_setBits : decodeTableWord 8 0b0001 = some (.setBits [] 0 0 0) := by decide
theorem test_decode_readSegments : decodeTableWord 8 0b0010 = some (.readSegments [] []) := by decide
theorem test_decode_writeSegments : decodeTableWord 8 0b0011 = some (.writeSegments [] [] []) := by decide
theorem test_decode_decodeFloat18 : decodeTableWord 8 0b0100 = some (.decodeFloat18 0) := by decide
theorem test_decode_encodeFloat18 : decodeTableWord 8 0b0101 = some (.encodeFloat18 0) := by decide
theorem test_decode_readPacket : decodeTableWord 8 0b0110 = some (.readPacket []) := by decide
theorem test_decode_writePacket : decodeTableWord 8 0b0111 = some (.writePacket ⟨0, 0, 0, 0, 0⟩) := by decide
theorem test_decode_typeToString : decodeTableWord 8 0b1000 = some (.typeToString 0) := by decide
theorem test_decode_stringToType : decodeTableWord 8 0b1001 = some (.stringToType []) := by decide
theorem test_decode_reserved :
    [0xA, 0xB, 0xC, 0xD, 0xE, 0xF].map (decodeTableWord 8) = [none, none, none, none, none, none] := by decide
theorem test_decode_operands : decode 0x1 { buf := [1], value := 2, offset := 3, width := 4, a := 5, b := 6 } =
    .ok (.setBits [1] 2 3 4) := by decide

/-! ### The first step after reset runs the word that withFetchWord places -/

theorem test_first_steps : [0, 1, 2, 3, 4].map first =
    [some (.result 0), some (.buffer []), some (.values []), some (.buffer []), some (.value 0x38000000)] := by decide +kernel
theorem test_first_steps_more : [5, 6, 7, 8, 9].map first =
    [some (.code 0), some (.packet ⟨0, 0, 0x38000000, 0x38000000, 0x38000000⟩), some (.buffer [0, 0, 0, 0, 0, 0, 0, 0]),
      some (.typeName false []), some (.typeCode false 0)] := by decide +kernel

/-! ### Vectors of 95_test_vectors.md -/

/-- B9, B12. -/
theorem test_readBits : answer (exec (.readBits F 4 35) .reset) = some (.result 0x74E1A9DB) ∧
    answer (exec (.readBits F 60 67) .reset) = some (.result 5) := by decide
/-- B3, B18. -/
theorem test_readBits_order : answer (exec (.readBits F 9 3) .reset) = some (.result 54) ∧
    refusal (exec (.readBits F 0 32) .reset) = some .windowTooWide := by decide
/-- W1, W4. -/
theorem test_setBits : answer (exec (.setBits [0xFF, 0xFF] 5 6 4) .reset) = some (.buffer [0x7F, 0xFD]) ∧
    answer (exec (.setBits [0xAA, 0xAA, 0xAA, 0xAA, 0xAA, 0xAA] 0xDEADBEEF 4 32) .reset) =
      some (.buffer [0xFA, 0xEE, 0xDB, 0xEA, 0xAD, 0xAA]) := by decide +kernel
/-- W3, W7, W12. -/
theorem test_setBits_edges : answer (exec (.setBits [0, 0] 0x1FF 12 9) .reset) = some (.buffer [0x00, 0xF0]) ∧
    answer (exec (.setBits [0x12, 0x34] 0xFFFFFFFF 7 0) .reset) = some (.buffer [0x12, 0x34]) ∧
    refusal (exec (.setBits [0, 0] 1 0 33) .reset) = some .windowTooWide := by decide
/-- G1, G6. -/
theorem test_readSegments : answer (exec (.readSegments F SH) .reset) = some (.values [2, 54, 231079, 100980, 97193]) ∧
    answer (exec (.readSegments [178, 157, 26] SH) .reset) = some (.values [2, 54, 1703, 0, 0]) := by decide
/-- G9, G10. -/
theorem test_readSegments_refused : refusal (exec (.readSegments F [3, 0, 5]) .reset) = some .badShapeEntry ∧
    refusal (exec (.readSegments F [33]) .reset) = some .badShapeEntry := by decide
/-- G13, G14, G16. -/
theorem test_writeSegments :
    answer (exec (.writeSegments [0xFF, 0xFF, 0xFF] [4, 4, 4] [1, 2, 3]) .reset) = some (.buffer [0x21, 0xF3, 0xFF]) ∧
    answer (exec (.writeSegments [0xFF, 0xFF] [4, 8, 8] [0xA, 0x5C, 0x3F]) .reset) = some (.buffer [0xCA, 0xF5]) ∧
    answer (exec (.writeSegments [0, 0] [3, 7] [0, 200]) .reset) = some (.buffer [0x40, 0x02]) := by decide
/-- G17, G19. -/
theorem test_writeSegments_counts :
    answer (exec (.writeSegments [0xFF, 0xFF] [4, 4, 4, 4] [0, 0]) .reset) = some (.buffer [0x00, 0xFF]) ∧
    refusal (exec (.writeSegments [0] [4] [1, 2]) .reset) = some .valueCountMismatch := by decide
/-- S6, M16. -/
theorem test_decodeFloat18 : [231079, 100980, 97193, 0x3FFFF].map floatOfCode =
    [0xC4353800, 0x4453A000, 0x43DD4800, 0xC7FFF800] := by decide
/-- M1, M4. -/
theorem test_decodeFloat18_edge : answer (exec (.decodeFloat18 0x00000) .reset) = some (.value 0x38000000) ∧
    answer (exec (.decodeFloat18 0x00FFF) .reset) = some (.value 0x387FF800) := by decide
/-- E4, E9, E13, E16, E19, E25. -/
theorem test_encodeFloat18 : [0x3DCCCCCD, 0xC4353F5C, 0x3F7FFFEF, 0x47800000, 0x47FFFF80, 0x387FF800].map codeOfNumber =
    [0x0B999, 0x386A7, 0x0EFFF, 0x1F000, 0x1FFFF, 0x00FFF] := by decide
/-- E20, E23, E27, E29, E30, E31. -/
theorem test_encodeFloat18_clamps :
    [0x48000000, 0xFF800000, 0xB7800000, 0x00000000, 0x80000000, 0x80000001].map codeOfNumber =
      [0x1FFFF, 0x3FFFF, 0x20000, 0x00000, 0x00000, 0x20000] := by decide
/-- K1, K12. -/
theorem test_readPacket :
    answer (exec (.readPacket F) .reset) = some (.packet ⟨2, 54, 0xC4353800, 0x4453A000, 0x43DD4800⟩) ∧
    answer (exec (.readPacket [178, 157, 26]) .reset) = some (.packet ⟨2, 54, 0x38353800, 0x38000000, 0x38000000⟩) := by decide
/-- K5. -/
theorem test_readPacket_ones : answer (exec (.readPacket [0xFF, 0xFF, 0xFF, 0xFF, 0xFF, 0xFF, 0xFF, 0xFF]) .reset) =
    some (.packet ⟨7, 127, 0xC7FFF800, 0xC7FFF800, 0xC7FFF800⟩) := by decide
/-- K2, K6. -/
theorem test_writePacket :
    answer (exec (.writePacket ⟨2, 54, 0xC4353800, 0x4453A000, 0x43DD4800⟩) .reset) = some (.buffer F) ∧
    answer (exec (.writePacket ⟨2, 200, 0x3F800000, 0xBF000000, 0x447A0000⟩) .reset) =
      some (.buffer [66, 2, 192, 3, 0, 46, 208, 99]) := by decide +kernel
/-- K8: type 9, id 127, data 0.0, 1.0e9, -1.0e-9 (below 2^-15 in magnitude). -/
theorem test_writePacket_clamps :
    answer (exec (.writePacket ⟨9, 127, 0x00000000, 0x4E6E6B28, 0xB089705F⟩) .reset) =
      some (.buffer [249, 3, 0, 240, 255, 31, 0, 128]) := by decide +kernel
/-- K14, K15. -/
theorem test_typeToString : answer (exec (.typeToString 2) .reset) = some (.typeName true [0x53, 0x74, 0x61, 0x74, 0x65]) ∧
    answer (exec (.typeToString 7) .reset) = some (.typeName false []) := by decide
/-- K16, K17: "State", "state", the empty name. -/
theorem test_stringToType : answer (exec (.stringToType [0x53, 0x74, 0x61, 0x74, 0x65]) .reset) = some (.typeCode true 2) ∧
    answer (exec (.stringToType [0x73, 0x74, 0x61, 0x74, 0x65]) .reset) = some (.typeCode false 0) ∧
    answer (exec (.stringToType []) .reset) = some (.typeCode false 0) := by decide
/-- P2 step 4, in place on the caller's buffer. -/
theorem test_step_keeps : (after (step { State.reset with
      mem := [(1, [0x00, 0xF0])]
      pending := [{ op := 1, operands := { value := 5, offset := 6, width := 4 }, src := some 1, dst := some 1 }] })).map (·.mem) =
    some [(1, [0x40, 0xF1])] := by decide

/-! ### Witnesses: for each statement with hypotheses, a concrete state and operands that meet all of them -/

theorem witness_ResetMeetsTheStateInvariant : ports.wf = true := by decide

theorem witness_EveryStepKeepsTheStateInvariant :
    ∃ s t : State, s.Inv ∧ s.responses ≠ [] ∧ s.pending ≠ [] ∧ step s = .next t :=
  ⟨{ caller [{ op := 6, src := some 1 }] with responses := [.typeCode true 2] }, _,
    ⟨by decide, by decide, by decide⟩, by decide, by decide, rfl⟩

theorem witness_IdleStepChangesNothing : State.reset.pending = [] := rfl

theorem witness_StepRunsTheDecodedOperation :
    (caller [{ op := 0, operands := { a := 3, b := 9 }, src := some 1 }]).pending =
      { op := 0, operands := { a := 3, b := 9 }, src := some 1 } :: [] ∧
    decode 0 { a := 3, b := 9, buf := (caller []).mem.read 1 } = .ok (.readBits F 3 9) ∧
    hasRace (simultaneous [{ op := 0, operands := { a := 3, b := 9 }, src := some 1 }]) = false := by decide

/-- Both sides of the boundary: selector 9 is served, 10 is refused. -/
theorem witness_ReservedSelectorsAreRefused :
    refusal (step (caller [{ op := 9 }])) = none ∧ refusal (step (caller [{ op := 10 }])) = some .reservedSelector := by decide

theorem witness_DecodedOperationHasItsSelector : decode 0x9 { name := [1] } = .ok (.stringToType [1]) ∧
    decode 0x4 { code := 0x3FFFF } = .ok (.decodeFloat18 0x3FFFF) := by decide

theorem witness_EveryOperationOnlyAddsOneResponse :
    (∃ t, exec (.setBits F 5 6 4) small = .next t) ∧ carriesNaN (.setBits F 5 6 4) = false ∧
    (∃ t, exec (.encodeFloat18 0x7FC00000) small = .next t) ∧ carriesNaN (.encodeFloat18 0x7FC00000) = true :=
  ⟨⟨_, rfl⟩, rfl, ⟨_, rfl⟩, rfl⟩

theorem witness_AnswersDependOnOperandsOnly :
    carriesNaN (.readPacket F) = false ∧ (caller []).config = State.reset.config ∧ caller [] ≠ State.reset := by decide

theorem witness_UnboundedInstanceNeverHitsAPort :
    Config.default.lMax = none ∧ Config.default.idxW = none ∧ Config.default.shapeMax = none ∧ Config.default.nameMax = none ∧
    (Instr.readBits F 0 31).wf = true := by decide

/-- One for each clause, at the ports' limits. -/
theorem witness_RefusalsComeInTheirOrder :
    portAdmits small.config (.readBits F 0 127) = true ∧ portAdmits small.config (.readBits F 0 128) = false ∧
    portAdmits small.config (.writeSegments F [33, 1, 0] [1, 2, 3, 4]) = true ∧ (∃ w ∈ [33, 1, 0], w = 0 ∨ 32 < w) ∧
    portAdmits small.config (.writeSegments F [1, 32] [1, 2, 3]) = true ∧ (∀ w ∈ [1, 32], 1 ≤ w ∧ w ≤ 32) ∧
    [1, 32].length < [1, 2, 3].length := by decide

/-- A safe request and one that is not. -/
theorem witness_StepCompletesExactlyWhenSafe : (caller [{ op := 0, operands := { b := 31 }, src := some 1 }]).safe = true ∧
    (caller [{ op := 0, operands := { b := 32 }, src := some 1 }]).safe = false := by decide

theorem witness_StepChangesOnlyTheKeptBuffer :
    ∃ (s t : State) (r : Request), s.mem.wf = true ∧ s.pending = r :: [] ∧ step s = .next t ∧
      ¬(r.dst = some 1 ∧ (r.op = 0x1 ∨ r.op = 0x3 ∨ r.op = 0x7)) :=
  ⟨caller [{ op := 1, src := some 1, dst := some 2 }], _, _, by decide, rfl, rfl, by decide⟩

theorem witness_KeptBufferIsTheNextOperand :
    ∃ (s t : State) (r : Request), s.mem.wf = true ∧ s.pending = r :: [] ∧ r.dst = some 2 ∧ step s = .next t ∧
      t.responses = .buffer F :: s.responses :=
  ⟨caller [{ op := 1, src := some 1, dst := some 2 }], _, _, by decide, rfl, rfl, rfl, by decide⟩

/-- Widths 0 and 32, the second straddling the end. -/
theorem witness_SetBitsInPlaceChangesOnlyItsWindow :
    ∀ o ∈ [{ value := 5 }, { value := 5, offset := 60, width := 32 }], ∃ s : State, s.mem.wf = true ∧
      s.pending = { op := 0x1, operands := o, src := some 1, dst := some 1 } :: [] ∧
      portAdmits s.config (.setBits (s.mem.read 1) o.value o.offset o.width) = true ∧ o.width ≤ 32 := by
  intro o ho
  refine ⟨caller [{ op := 0x1, operands := o, src := some 1, dst := some 1 }],
    (by decide : Memory.wf [(1, F)] = true), rfl, rfl, ?_⟩
  fin_cases ho <;> decide

theorem witness_WriteSegmentsInPlaceChangesOnlyItsFields :
    ∃ (s : State) (o : Operands), s.mem.wf = true ∧
      s.pending = { op := 0x3, operands := o, src := some 1, dst := some 1 } :: [] ∧
      portAdmits s.config (.writeSegments (s.mem.read 1) o.shape o.values) = true ∧
      (∀ w ∈ o.shape, 1 ≤ w ∧ w ≤ 32) ∧ o.values.length ≤ o.shape.length :=
  ⟨caller [{ op := 0x3, operands := { shape := SH, values := [7, 1] }, src := some 1, dst := some 1 }], _,
    by decide, rfl, by decide, by decide, by decide⟩

/-- A write beside a read, and a read beside a write. -/
theorem witness_SimultaneousWriteIsARace :
    (∃ (s : State) (r q : Request), s.pending = r :: q :: [] ∧ r.alongside = true ∧ r.op.toNat < 10 ∧
      1 ∈ writtenBuffers r ∧ 1 ∈ touchedBuffers q) ∧
    (∃ (s : State) (r q : Request), s.pending = r :: q :: [] ∧ r.alongside = true ∧ r.op.toNat < 10 ∧
      1 ∈ touchedBuffers r ∧ 1 ∈ writtenBuffers q) :=
  ⟨⟨caller [{ op := 1, src := some 1, dst := some 1, alongside := true }, { op := 6, src := some 1 }], _, _,
      rfl, rfl, by decide, by decide, by decide⟩,
    ⟨caller [{ op := 0, src := some 1, alongside := true }, { op := 7, dst := some 1 }], _, _,
      rfl, rfl, by decide, by decide, by decide⟩⟩

theorem witness_IndependentRequestsCommute :
    ∃ (s u t : State) (r q : Request), s.mem.wf = true ∧ races r q = false ∧
      (∀ i, issue s.mem r = .ok i → carriesNaN i = false) ∧ (∀ i, issue s.mem q = .ok i → carriesNaN i = false) ∧
      step { s with pending := [r, q] } = .next u ∧ step u = .next t := by
  refine ⟨caller [], _, _, { op := 1, operands := { value := 1, width := 1 }, src := some 1, dst := some 1 },
    { op := 7, dst := some 2, alongside := true }, by decide, by decide, ?_, ?_, rfl, rfl⟩ <;>
  · intro i h
    injection h with h
    rw [← h]
    decide

/-- The last position that exists and the first that does not. -/
theorem witness_PositionIsBitOfByte : 63 / 8 < F.length ∧ F.length ≤ 64 / 8 := by decide

theorem witness_ReadBitsAnswersItsWindow :
    (portAdmits small.config (.readBits F 63 63) = true ∧ max 63 63 - min 63 63 < 32) ∧
    (portAdmits small.config (.readBits F 31 0) = true ∧ max 31 0 - min 31 0 < 32) := by decide

theorem witness_ReadBitsIsSymmetricAndZeroFilled :
    portAdmits small.config (.readBits F 64 (64 + 31)) = true ∧ 8 * F.length ≤ 64 ∧ 31 ≤ 31 := by decide

/-- One byte and four. -/
theorem witness_ByteWindowIsLittleEndian :
    portAdmits small.config (.readBits F (8 * 0) (8 * 0 + 8 * 1 - 1)) = true ∧
    portAdmits small.config (.readBits F (8 * 4) (8 * 4 + 8 * 4 - 1)) = true := by decide

theorem witness_WideWindowsAreRefused :
    (portAdmits small.config (.readBits F 64 96) = true ∧ 32 ≤ max 64 96 - min 64 96) ∧
    (portAdmits small.config (.setBits F 1 0 33) = true ∧ 32 < 33) := by decide

theorem witness_SetBitsWritesExactlyItsWindow :
    portAdmits small.config (.setBits F 1 0 0) = true ∧ portAdmits small.config (.setBits F 1 60 32) = true := by decide

/-- Inside, straddling the end, beyond it. -/
theorem witness_SetBitsReadsBack :
    portAdmits small.config (.setBits F 1 63 1) = true ∧ portAdmits small.config (.setBits F 1 60 32) = true ∧
    portAdmits small.config (.setBits F 1 64 32) = true := by decide

/-- Adjacent windows, in both orders. -/
theorem witness_DisjointWritesCommute :
    portAdmits small.config (.setBits F 1 4 4) = true ∧ portAdmits small.config (.setBits F 2 8 32) = true ∧
    (4 + 4 ≤ 8 ∨ 8 + 32 ≤ 4) ∧ (8 + 32 ≤ 4 ∨ 4 + 4 ≤ 8) := by decide

theorem witness_ReadSegmentsAnswersEveryField :
    portAdmits small.config (.readSegments [1, 2] SH) = true ∧ (∀ w ∈ SH, 1 ≤ w ∧ w ≤ 32) ∧
    8 * ([1, 2] : Buffer).length ≤ (SH.take 3).sum ∧ portAdmits small.config (.readSegments F [1, 32]) = true ∧
    (∀ w ∈ [1, 32], 1 ≤ w ∧ w ≤ 32) := by decide

theorem witness_ReadSegmentsIgnoresTheTail :
    portAdmits small.config (.readSegments [0xB2] [3, 5]) = true ∧
    portAdmits small.config (.readSegments [0xB2, 0xFF] [3, 5]) = true ∧
    (∀ p, p < [3, 5].sum → bitRead [0xB2] p = bitRead [0xB2, 0xFF] p) := by decide

theorem witness_WriteSegmentsWritesItsFields :
    portAdmits small.config (.writeSegments F SH [1]) = true ∧ (∀ w ∈ SH, 1 ≤ w ∧ w ≤ 32) ∧ [1].length ≤ SH.length := by decide

theorem witness_WriteSegmentsIsOneSetBitsPerField :
    portAdmits small.config (.writeSegments F ([3, 7] ++ [18]) ([1, 2] ++ [3])) = true ∧
    (∀ x ∈ [3, 7] ++ [18], 1 ≤ x ∧ x ≤ 32) ∧ [1, 2].length = [3, 7].length := by decide

theorem witness_BadShapesAreRefused :
    (∃ w ∈ [3, 0], w = 0 ∨ 32 < w) ∧ (∃ w ∈ [33], w = 0 ∨ 32 < w) ∧
    portAdmits small.config (.readSegments F [3, 0]) = true ∧ portAdmits small.config (.writeSegments F [33] [1]) = true := by
  decide

theorem witness_SegmentRoundTrip :
    portAdmits small.config (.readSegments F SH) = true ∧ SH.sum = 8 * F.length ∧
    zeroFrame.length = F.length ∧ (∀ w ∈ SH, 1 ≤ w ∧ w ≤ 32) := by decide

theorem witness_WrittenSegmentsReadBack :
    portAdmits small.config (.writeSegments F [1, 32] [1, 2]) = true ∧ (∀ w ∈ [1, 32], 1 ≤ w ∧ w ≤ 32) ∧
    [1, 2].length = [1, 32].length ∧ [1, 32].sum ≤ 8 * F.length := by decide

/-- Neighbours at the ends of the positive and of the negative codes. -/
theorem witness_DecodingIsInjectiveAndOrdered :
    ((0x1FFFE : Code18).toNat < (0x1FFFF : Code18).toNat ∧ (0x1FFFF : Code18).toNat < 2 ^ 17) ∧
    (2 ^ 17 ≤ (0x20000 : Code18).toNat ∧ (0x20000 : Code18).toNat < (0x20001 : Code18).toNat) := by decide

/-- 2^-15, 1 and 65536: the least exponent, exponent 0, the greatest. -/
theorem witness_EncodeFollowsTheRealFormula :
    (f32IsFinite 0x38000000 = true ∧ (2 : ℚ) ^ (-15 : ℤ) ≤ |f32Real 0x38000000| ∧ |f32Real 0x38000000| < 2 ^ ((-15 : ℤ) + 1)) ∧
    (f32IsFinite 0x3F800000 = true ∧ (2 : ℚ) ^ (0 : ℤ) ≤ |f32Real 0x3F800000| ∧ |f32Real 0x3F800000| < 2 ^ ((0 : ℤ) + 1)) ∧
    (f32IsFinite 0x47800000 = true ∧ (2 : ℚ) ^ (16 : ℤ) ≤ |f32Real 0x47800000| ∧ |f32Real 0x47800000| < 2 ^ ((16 : ℤ) + 1)) := by
  have h1 : f32Scaled 0x38000000 = 2 ^ 134 := by decide +kernel
  have h2 : f32Scaled 0x3F800000 = 2 ^ 149 := by decide +kernel
  have h3 : f32Scaled 0x47800000 = 2 ^ 165 := by decide +kernel
  simp only [abs_real, h1, h2, h3]
  refine ⟨⟨by decide, ?_, ?_⟩, ⟨by decide, ?_, ?_⟩, ⟨by decide, ?_, ?_⟩⟩ <;> norm_num

/-- An infinity, and 131056. -/
theorem witness_EncodeClampsOverflow :
    f32IsInf 0xFF800000 = true ∧ f32IsFinite 0x47FFF800 = true ∧ 131056 ≤ |f32Real 0x47FFF800| := by
  have h : f32Scaled 0x47FFF800 = 8191 * 2 ^ 153 := by decide +kernel
  rw [abs_real, h]
  exact ⟨by decide, by decide, by norm_num⟩

/-- The negative subnormal of least magnitude, and the greatest f32 below 2^-15. -/
theorem witness_EncodeClampsUnderflow :
    (f32IsFinite 0x80000001 = true ∧ |f32Real 0x80000001| < 2 ^ (-15 : ℤ)) ∧
    (f32IsFinite 0x37FFFFFF = true ∧ |f32Real 0x37FFFFFF| < 2 ^ (-15 : ℤ)) := by
  have h1 : f32Scaled 0x80000001 = 1 := by decide +kernel
  have h2 : f32Scaled 0x37FFFFFF = 16777215 * 2 ^ 110 := by decide +kernel
  rw [abs_real, abs_real, h1, h2]
  exact ⟨⟨by decide, by norm_num⟩, by decide, by norm_num⟩

theorem witness_EncodedSignIsThatOfTheNumber :
    f32IsNaN 0xFF800000 = false ∧ f32IsNaN 0x80000001 = false ∧ (0x80000001 : F32) ≠ 0 ∧ (0x80000001 : F32) ≠ 0x80000000 := by
  decide

theorem witness_EncodeOfNaNCompletes : f32IsNaN 0x7FC00000 = true ∧ f32IsNaN 0xFF800001 = true := by decide

/-- NaN, and the two sides of each threshold on E8. -/
theorem witness_EncodeIsTheBitTransform :
    ((0x7F800001 : F32).toNat / 2 ^ 23 % 2 ^ 8 = 255 ∧ (0x7F800001 : F32).toNat % 2 ^ 23 ≠ 0) ∧
    (0x48000000 : F32).toNat / 2 ^ 23 % 2 ^ 8 = 144 ∧ (0x47FFFFFF : F32).toNat / 2 ^ 23 % 2 ^ 8 = 143 ∧
    (0x38000000 : F32).toNat / 2 ^ 23 % 2 ^ 8 = 112 ∧ (0x37FFFFFF : F32).toNat / 2 ^ 23 % 2 ^ 8 = 111 := by decide

theorem witness_DecodeAfterEncodeTruncates :
    f32IsFinite 0x3F800000 = true ∧ (2 : ℚ) ^ (0 : ℤ) ≤ |f32Real 0x3F800000| ∧ |f32Real 0x3F800000| < 2 ^ ((0 : ℤ) + 1) :=
  witness_EncodeFollowsTheRealFormula.2.1

/-- The three forms of the order: from minus infinity, to plus infinity, between finite values. -/
theorem witness_QuantiserIsMonotonic :
    (f32IsNaN 0xFF800000 = false ∧ f32IsNaN 0xC7FFF800 = false ∧ f32Le 0xFF800000 0xC7FFF800) ∧
    (f32IsNaN 0x47FFF800 = false ∧ f32IsNaN 0x7F800000 = false ∧ f32Le 0x47FFF800 0x7F800000) ∧
    (f32IsNaN 0x3F800000 = false ∧ f32Le 0x3F800000 0x3F800000) :=
  ⟨⟨by decide, by decide, .inl (by decide)⟩, ⟨by decide, by decide, .inr (.inl (by decide))⟩, by decide,
    .inr (.inr ⟨by decide, by decide, le_refl _⟩)⟩

theorem witness_ReadPacketAnswersTheFrame : portAdmits small.config (.readPacket F) = true := by decide

theorem witness_ShortFrameReadsAsZeroPadded :
    portAdmits small.config (.readPacket [178, 157, 26]) = true ∧
    portAdmits small.config (.readPacket [0, 0, 0, 0, 0, 0, 0, 0]) = true := by decide

theorem witness_WritePacketBuildsTheFrame : f32IsNaN 0x3F800000 = false ∧ f32IsNaN 0x7FC00000 = true := by decide

theorem witness_PacketOperationsAreTheirExpansions :
    portAdmits small.config (.readPacket F) = true ∧ portAdmits small.config (.readSegments F [3, 7, 18, 18, 18]) = true ∧
    carriesNaN (.writePacket ⟨2, 200, 0x3F800000, 0xBF000000, 0x447A0000⟩) = false ∧
    (∀ vs, portAdmits small.config (.writeSegments [0, 0, 0, 0, 0, 0, 0, 0] [3, 7, 18, 18, 18] vs) = true) :=
  ⟨by decide, by decide, by decide, fun _ => rfl⟩

theorem witness_FrameRoundTrip : F.length = 8 ∧ portAdmits small.config (.readPacket F) = true := by decide

theorem witness_PacketRoundTrip :
    (7 : Word).toNat ≤ 7 ∧ (127 : Word).toNat ≤ 127 ∧
    carriesNaN (.writePacket ⟨7, 127, 0x7F800000, 0x80000001, 0x447A0000⟩) = false ∧
    portAdmits small.config (.readPacket [0, 0, 0, 0, 0, 0, 0, 0]) = true := by decide

/-- A code of the table and one that is not in it. -/
theorem witness_TypeToStringLooksUpTheTable :
    small.config.wf = true ∧ (2, Config.stateName) ∈ small.config.typeTable ∧
    (∀ nm : Name, (5, nm) ∉ small.config.typeTable) :=
  ⟨by decide, by decide, fun nm h => by simp [small, ports, State.resetWith, Config.default, Config.stateCode] at h⟩

/-- A name of the table, of the longest length the port takes, and one that is not in it. -/
theorem witness_StringToTypeLooksUpTheTable :
    small.config.wf = true ∧ portAdmits small.config (.stringToType Config.stateName) = true ∧
    (2, Config.stateName) ∈ small.config.typeTable ∧ portAdmits small.config (.stringToType []) = true ∧
    (∀ c : TypeCode, (c, []) ∉ small.config.typeTable) := by decide

theorem witness_TypeLookupsAreInverse :
    small.config.wf = true ∧
    exec (.typeToString 2) small = .next { small with responses := .typeName true Config.stateName :: small.responses } ∧
    portAdmits small.config (.stringToType Config.stateName) = true ∧
    exec (.stringToType Config.stateName) small = .next { small with responses := .typeCode true 2 :: small.responses } :=
  ⟨by decide, rfl, by decide, rfl⟩

end Sys2Proof.Tests
end

section
/-! PROOFS. An instance without port limits (00_scope.md R6): its ports take every operand, so PortLimit never arises. -/

namespace Sys2Proof.Machine

/-- Outside its domain an operation is refused for its operands and not for a port (R193); the six operations that
`domainRefusal` gives `portLimit` as a filler have no operands outside the domain. -/
theorem domainRefusal_ne_portLimit {i : Instr} (h : i.wf = false) : domainRefusal i ≠ .portLimit := by
  cases i with
  | readBits | setBits | readSegments => nofun
  | writeSegments buf shape values => simp only [domainRefusal]; split <;> nofun
  | decodeFloat18 | encodeFloat18 | readPacket | writePacket | typeToString | stringToType =>
    simp [Instr.wf] at h

/-- PortLimit is raised at the port only (R193, R195): behind a port that takes the operands it never arises. -/
theorem exec_ne_portLimit {i : Instr} {s : State} (hp : portAdmits s.config i = true) :
    exec i s ≠ .refused .portLimit := by
  rw [exec_eq, if_pos hp]
  split
  · nofun
  · rename_i hw
    intro h
    injection h with h
    exact domainRefusal_ne_portLimit (Bool.eq_false_iff.mpr hw) h

/-- Settles O13: without limits every port takes the operands, and behind such a port only the domain decides. -/
theorem unboundedInstanceNeverHitsAPort : Obligations.UnboundedInstanceNeverHitsAPort := by
  intro i s hl hi hs hn
  have hp : portAdmits s.config i = true := portAdmits_unbounded hl hi hs hn i
  exact ⟨exec_ne_portLimit hp, fun hw => ⟨_, exec_completes hp hw⟩⟩

end Sys2Proof.Machine
end

section
/-! PROOFS. The state over operations and steps (10_state.md): an idle step, the one response an operation adds, a kept buffer,
and the invariant. -/

namespace Sys2Proof.Machine

/-! ### Steps -/

/-- With nothing pending the block is idle (70_reset_and_hazards.md R220). -/
theorem step_idle {s : State} (hp : s.pending = []) : step s = .next s := by
  simp only [step, hp]

/-- A request that decodes and does not race is performed, and what comes back is delivered (10_state.md R12, R20). -/
theorem step_issued {s : State} {r : Request} {rest : List Request} {i : Instr} (hp : s.pending = r :: rest)
    (hi : issue s.mem r = .ok i) (hr : hasRace (simultaneous (r :: rest)) = false) :
    step s = deliver r.dst (exec i { s with pending := rest }) := by
  simp only [step, hp, hi, hr, Bool.false_eq_true, if_false]

/-- A request that names a caller's buffer is issued with that buffer's content (R20, R42). -/
theorem issue_src {m : Memory} {q : Request} {k : Nat} (h : q.src = some k) :
    issue m q = decode q.op { q.operands with buf := m.read k } := by
  simp only [issue, operandsAt, h]

/-- Settles O4: an idle block keeps its state. -/
theorem idleStepChangesNothing : Obligations.IdleStepChangesNothing :=
  fun _ hp => step_idle hp

/-- Settles O5: the decoding in the statement is `issue`, and its match on the outcome is `deliver`. -/
theorem stepRunsTheDecodedOperation : Obligations.StepRunsTheDecodedOperation := by
  intro s r rest i hp hdecode hr
  have hi : issue s.mem r = .ok i := hdecode
  rw [step_issued hp hi hr]
  cases exec i { s with pending := rest } <;> rfl

/-! ### The one response of an operation -/

/-- Everything exec can do without a NaN: the draw counter neither moves nor matters (R11). -/
theorem exec_eq_of_noNaN {i : Instr} (hn : carriesNaN i = false) (s : State) :
    exec i s =
      if portAdmits s.config i then
        if i.wf then .next (s.answer (answerOf s.config 0 i)) else .refused (domainRefusal i)
      else .refused .portLimit := by
  rw [exec_eq, drawCount_zero hn, State.drawn_zero, answerOf_draw hn s.config s.draws 0]

/-- Settles O9: what completes has added its answer and taken its draws, of which there are none without a NaN. -/
theorem everyOperationOnlyAddsOneResponse : Obligations.EveryOperationOnlyAddsOneResponse := by
  intro i s t h
  obtain ⟨-, -, rfl⟩ := exec_eq_next h
  exact ⟨rfl, rfl, rfl, ⟨_, rfl⟩, fun hn => by simp [drawCount_zero hn]⟩

/-- Settles O10: without a NaN the port, the domain and the answer are functions of the configuration and the operation. -/
theorem answersDependOnOperandsOnly : Obligations.AnswersDependOnOperandsOnly := by
  intro i s s' hn hc
  have hs' := exec_eq_of_noNaN hn s'
  rw [← hc] at hs'
  rw [exec_eq_of_noNaN hn s, hs']
  by_cases hport : portAdmits s.config i = true
  · by_cases hwf : i.wf = true
    · simp only [if_pos hport, if_pos hwf]
      exact .inl ⟨_, rfl, rfl⟩
    · simp only [if_pos hport, if_neg hwf]
      exact .inr ⟨_, rfl, rfl⟩
  · simp only [if_neg hport]
    exact .inr ⟨_, rfl, rfl⟩

/-! ### Kept buffers -/

/-- Settles O17: the newest response is the served operation's answer, so that answer is the buffer kept as `k`. -/
theorem keptBufferIsTheNextOperand : Obligations.KeptBufferIsTheNextOperand := by
  intro s t r rest k b hm hp hd hstep hresp
  obtain ⟨i, -, -, -, -, rfl⟩ := step_served hp hstep
  have hanswer : answerOf s.config s.draws i = .buffer b := by simpa using hresp
  rw [hd, hanswer]
  have hread := read_keep (s := { s with pending := rest }) hm (.buffer b) (drawCount i) (some k) k
  simp only [keptAt, if_pos] at hread
  exact ⟨hread, fun q hq => by rw [issue_src hq, hread]⟩

/-! ### The invariant -/

/-- A decoded packet has `type <= 7`, `id <= 127` (R21) and finite data (42_minifloat18.md R132). -/
theorem responseOk_packetOfFrame (c : Config) (buf : Buffer) : responseOk c (.packet (packetOfFrame buf)) = true := by
  have htype := toNat_memRead_lt buf 0 3 (by decide)
  have hid := toNat_memRead_lt buf 3 7 (by decide)
  simp only [responseOk, Bool.and_eq_true, decide_eq_true_eq]
  exact ⟨⟨⟨⟨Nat.le_of_lt_succ htype, Nat.le_of_lt_succ hid⟩, finite_floatOfCode _⟩, finite_floatOfCode _⟩,
    finite_floatOfCode _⟩

/-- A name TYPETOSTRING finds stands in TYPE_TABLE (43_packetframe.md R166). -/
theorem responseOk_typeNameResponse (c : Config) (tcode : TypeCode) :
    responseOk c (typeNameResponse (nameOfCode c.typeTable tcode)) = true := by
  cases h : nameOfCode c.typeTable tcode with
  | none => rfl
  | some nm =>
    have hmem : nm ∈ c.typeTable.map Prod.snd := List.mem_map_of_mem (nameOfCode_mem h)
    simpa [responseOk, typeNameResponse] using hmem

/-- A code STRINGTOTYPE finds stands in TYPE_TABLE (R167). -/
theorem responseOk_typeCodeResponse (c : Config) (name : Name) :
    responseOk c (typeCodeResponse (codeOfName c.typeTable name)) = true := by
  cases h : codeOfName c.typeTable name with
  | none => rfl
  | some code =>
    have hmem : code ∈ c.typeTable.map Prod.fst := List.mem_map_of_mem (codeOfName_mem h)
    simpa [responseOk, typeCodeResponse] using hmem

/-- Every answer of the block is a response it can give. -/
theorem responseOk_answerOf (c : Config) (draw : Nat) (i : Instr) : responseOk c (answerOf c draw i) = true := by
  cases i with
  | readBits | setBits | readSegments | writeSegments | encodeFloat18 | writePacket => rfl
  | decodeFloat18 code => exact finite_floatOfCode code
  | readPacket buf => exact responseOk_packetOfFrame c buf
  | typeToString tcode => exact responseOk_typeNameResponse c tcode
  | stringToType name => exact responseOk_typeCodeResponse c name

/-- An answer the block can give keeps the invariant. -/
theorem State.Inv.answer {s : State} (h : s.Inv) {r : Response} (hr : responseOk s.config r = true) :
    (s.answer r).Inv := by
  obtain ⟨htable, hmem, hresp⟩ := h
  exact ⟨htable, hmem, List.forall_mem_cons.mpr ⟨hr, hresp⟩⟩

/-- The invariant says nothing of the draw counter. -/
theorem State.Inv.drawn {s : State} (h : s.Inv) (n : Nat) : (s.drawn n).Inv := h

/-- The invariant says nothing of the pending requests. -/
theorem State.Inv.withPending {s : State} (h : s.Inv) (rs : List Request) : State.Inv { s with pending := rs } := h

/-- Keeping a returned buffer keeps the invariant. -/
theorem State.Inv.keep {s : State} (h : s.Inv) (d : Option Nat) : (s.keep d).Inv := by
  obtain ⟨htable, hmem, hresp⟩ := h
  exact ⟨by simpa using htable, State.keep_wf hmem d, by simpa using hresp⟩

/-- An operation keeps the invariant. -/
theorem State.Inv.exec {s t : State} (h : s.Inv) {i : Instr} (he : exec i s = .next t) : t.Inv := by
  obtain ⟨-, -, rfl⟩ := exec_eq_next he
  exact (h.answer (responseOk_answerOf s.config s.draws i)).drawn (drawCount i)

/-- Settles O3: a step is idle, or an operation whose returned buffer is kept, and both keep the invariant. -/
theorem everyStepKeepsTheStateInvariant : Obligations.EveryStepKeepsTheStateInvariant := by
  intro s t hs h
  obtain ⟨-, rfl⟩ | ⟨r, rest, i, u, -, -, -, he, rfl⟩ := step_eq_next h
  · exact hs
  · exact ((hs.withPending rest).exec he).keep r.dst

end Sys2Proof.Machine
end

section
/-! PROOFS. The caller's memory (20_memory.md): the bit a position names, and what an in-place write leaves unchanged. -/

namespace Sys2Proof.Machine

/-! ### Positions -/

/-- A bit of a byte, as R30 reads it: shifted to the bottom and masked. -/
theorem getLsbD_eq_shift_and_one (x : Byte) (i : Nat) : x.getLsbD i = decide ((x >>> i) &&& 1#8 = 1#8) := by
  have hmask : (x >>> i) &&& 1#8 = (BitVec.ofBool (x.getLsbD i)).setWidth 8 := by
    simp [BitVec.and_one_eq_setWidth_ofBool_getLsbD]
  rw [hmask]
  cases x.getLsbD i <;> decide

/-- Settles O22: byte `p / 8` exists exactly when position `p` does (R30), and beyond the end a read is 0 (R33). -/
theorem positionIsBitOfByte : Obligations.PositionIsBitOfByte := by
  intro buf p
  refine ⟨rfl, fun h => ?_, fun h => bitRead_beyond (by unfold bitLen; omega)⟩
  have hp : p < bitLen buf := by unfold bitLen; omega
  rw [bitRead, if_pos hp, List.getD_eq_getElem _ _ h, getLsbD_eq_shift_and_one]

/-! ### In-place writes -/

/-- A request issued alone races with nothing (R45; log entry 5). -/
theorem hasRace_of_not_alongside {r : Request} {rest : List Request} (h : r.alongside = false) :
    hasRace (simultaneous (r :: rest)) = false := by
  simp [simultaneous, hasRace, h]

/-- A request issued alone, on its operation's domain, whose answer is the buffer `b`: the step completes, `b` is what number
`k` holds, and every other buffer and the configuration are as before (R42, C9; log entry 4). -/
theorem step_keeps_buffer {s : State} {r : Request} {rest : List Request} {i : Instr} {k : Nat} {b : Buffer}
    (hm : s.mem.wf = true) (hp : s.pending = r :: rest) (hr : r.alongside = false) (hd : r.dst = some k)
    (hi : issue s.mem r = .ok i) (hport : portAdmits s.config i = true) (hwf : i.wf = true)
    (hb : answerOf s.config s.draws i = .buffer b) :
    ∃ t, step s = .next t ∧ t.pending = rest ∧ t.config = s.config ∧
      (∀ j, j ≠ k → t.mem.read j = s.mem.read j) ∧ t.mem.read k = b := by
  have hrace : hasRace (simultaneous s.pending) = false := by rw [hp]; exact hasRace_of_not_alongside hr
  refine ⟨_, step_serves hp hi hrace hport hwf, State.keep_pending _ _, State.keep_config _ _, ?_⟩
  have hread := read_keep (s := { s with pending := rest }) hm (.buffer b) (drawCount i) (some k)
  rw [hb, hd]
  exact ⟨fun j hj => (hread j).trans (if_neg hj), (hread k).trans (if_pos rfl)⟩

/-- Settles O18: the buffer kept is the window's write, which changes the window's bits below the end only (R34). -/
theorem setBitsInPlaceChangesOnlyItsWindow : Obligations.SetBitsInPlaceChangesOnlyItsWindow := by
  intro s o rest k hm hp hport hw
  obtain ⟨t, hstep, hpending, hconfig, hother, hk⟩ :=
    step_keeps_buffer (b := memWrite (s.mem.read k) o.offset o.value o.width) hm hp rfl rfl (issue_src rfl) hport
      (decide_eq_true hw) rfl
  refine ⟨t, hstep, hpending, hconfig, hother, ?_, fun p => ?_⟩
  · rw [hk, length_memWrite]
  · rw [hk, bitRead_memWrite, bitLen]

/-- Settles O19: the buffer kept is the walk's, which changes the bits of the fields that have a value and no position at or
beyond the last of them (R113, R114, D11). -/
theorem writeSegmentsInPlaceChangesOnlyItsFields : Obligations.WriteSegmentsInPlaceChangesOnlyItsFields := by
  intro s o rest k hm hp hport hshape hvalues
  have hwf : (Instr.writeSegments (s.mem.read k) o.shape o.values).wf = true := by
    simp [Instr.wf, (shapeOk_iff o.shape).mpr hshape, hvalues]
  obtain ⟨t, hstep, hpending, hconfig, hother, hk⟩ :=
    step_keeps_buffer (b := writeFields (s.mem.read k) 0 o.shape o.values) hm hp rfl rfl (issue_src rfl) hport hwf rfl
  refine ⟨t, hstep, hpending, hconfig, hother, ?_, fun i j w v hi hv hj hl => ?_, fun p h => ?_⟩
  · rw [hk, length_writeFields]
  · have hfield := bitRead_writeFields_field (s.mem.read k) 0 o.shape o.values i j w v hi hv hj
    rw [Nat.zero_add] at hfield
    exact hk ▸ hfield hl
  · rw [hk]
    exact bitRead_writeFields_after _ _ _ _ _ ((Nat.zero_add _).trans_le h)

end Sys2Proof.Machine
end

section
/-! PROOFS. Bit windows (40_bitwindow.md): what READBITS answers, what SETBITS writes, and reading a written window back. -/

namespace Sys2Proof.Machine

/-! ### Reading a window -/

/-- A bit of a buffer without the case of its end: bit `p mod 8` of byte `p div 8`, masked by the end (R30, R33). -/
theorem bitRead_eq_and (buf : Buffer) (p : Nat) :
    bitRead buf p = (decide (p < 8 * buf.length) && (buf.getD (p / 8) 0).getLsbD (p % 8)) := by
  by_cases hp : p < 8 * buf.length <;> simp [bitRead, bitLen, hp]

/-- The domain of READBITS in terms of the window's width (R92). -/
theorem windowWidth_le_32 {a b : Nat} (hw : max a b - min a b < 32) : windowWidth a b ≤ 32 := by
  unfold windowWidth; omega

/-- The bits of a window, lowest position first: those of the positions up to its upper end (R91). -/
theorem getLsbD_readWindow (buf : Buffer) {a b : Nat} (hw : max a b - min a b < 32) (i : Nat) :
    (readWindow buf a b).getLsbD i = (decide (min a b + i ≤ max a b) && bitRead buf (min a b + i)) := by
  have hin : i < windowWidth a b ↔ min a b + i ≤ max a b := by unfold windowWidth; omega
  rw [readWindow, getLsbD_memRead _ _ _ _ (windowWidth_le_32 hw), decide_eq_decide.mpr hin]

/-- Settles O23: the answer is the window read bit by bit (R91), and a bit beyond the end is 0 (R33). -/
theorem readBitsAnswersItsWindow : Obligations.ReadBitsAnswersItsWindow := by
  intro s buf a b hp hw
  refine ⟨rfl, readWindow buf a b, exec_readBits hp hw, toNat_memRead_lt _ _ _ (windowWidth_le_32 hw), fun i => ?_⟩
  rw [getLsbD_readWindow buf hw, bitRead_eq_and, Bool.and_assoc]

/-! ### The order of the ends -/

/-- A window does not depend on the order of its ends (R93). -/
theorem readWindow_comm (buf : Buffer) (a b : Nat) : readWindow buf a b = readWindow buf b a := by
  simp only [readWindow, windowWidth, min_comm, max_comm]

/-- Nor does READBITS's port: both ends must fit it (R6). -/
theorem portAdmits_readBits_comm (c : Config) (buf : Buffer) (a b : Nat) :
    portAdmits c (.readBits buf a b) = portAdmits c (.readBits buf b a) :=
  Bool.and_right_comm _ _ _

/-- Nor does READBITS's domain: it bounds the width (R92). -/
theorem wf_readBits_comm (buf : Buffer) (a b : Nat) : (Instr.readBits buf a b).wf = (Instr.readBits buf b a).wf := by
  simp only [Instr.wf, min_comm, max_comm]

/-- The port, the domain and the answer being symmetric, so is the operation, refusals included (R93). -/
theorem exec_readBits_comm (s : State) (buf : Buffer) (a b : Nat) :
    exec (.readBits buf a b) s = exec (.readBits buf b a) s := by
  rw [exec_eq, exec_eq, portAdmits_readBits_comm, wf_readBits_comm, answerOf, answerOf, readWindow_comm]
  rfl

/-- A window whose lower end is at or beyond the buffer's end reads as 0 (R33, R93). -/
theorem readWindow_beyond {buf : Buffer} {a b : Nat} (hw : max a b - min a b < 32) (h : bitLen buf ≤ min a b) :
    readWindow buf a b = 0 :=
  memRead_beyond (windowWidth_le_32 hw) h

/-- Settles O24: READBITS is symmetric, and from the end on all its bits are 0. -/
theorem readBitsIsSymmetricAndZeroFilled : Obligations.ReadBitsIsSymmetricAndZeroFilled := by
  refine ⟨exec_readBits_comm, fun s buf n k hp hn hk => ?_⟩
  have hw : max n (n + k) - min n (n + k) < 32 := by omega
  have hlow : bitLen buf ≤ min n (n + k) := by unfold bitLen; omega
  rw [exec_readBits hp hw, readWindow_beyond hw hlow]

/-! ### Writing a window -/

/-- Writing the same window again changes nothing: each of its bits already holds the value's (R40, R94). -/
theorem memWrite_idem (buf : Buffer) (addr : Nat) (v : Word) (n : Nat) :
    memWrite (memWrite buf addr v n) addr v n = memWrite buf addr v n := by
  refine buffer_ext (length_memWrite _ _ _ _) fun p => ?_
  rw [bitRead_memWrite (memWrite buf addr v n), bitRead_memWrite buf, bitLen_memWrite]
  split <;> rfl

/-- Settles O27: the answer is the window's write, whose bits `bitRead_memWrite` names; the port takes it as it took the
buffer, for their lengths are equal, and the write is idempotent. -/
theorem setBitsWritesExactlyItsWindow : Obligations.SetBitsWritesExactlyItsWindow := by
  intro s buf v offset width hp hw
  have hlen : (memWrite buf offset v width).length = buf.length := length_memWrite _ _ _ _
  have hp' : portAdmits s.config (.setBits (memWrite buf offset v width) v offset width) = true :=
    (portAdmits_setBits_length hlen).trans hp
  refine ⟨memWrite buf offset v width, exec_setBits hp hw, hlen, bitRead_memWrite buf offset v width, ?_⟩
  rw [exec_setBits hp' hw, memWrite_idem]

/-! ### Reading a written window back -/

/-- A window given by its offset and width, as READBITS's ends name it (R65). -/
theorem readWindow_offset_width (buf : Buffer) (offset : Nat) {width : Nat} (h : 1 ≤ width) :
    readWindow buf offset (offset + width - 1) = memRead buf offset width := by
  have hmin : min offset (offset + width - 1) = offset := by omega
  have hwidth : windowWidth offset (offset + width - 1) = width := by unfold windowWidth; omega
  rw [readWindow, hmin, hwidth]

/-- A written window holds as many low bits of the value as lie before the end (R96). -/
theorem toNat_memRead_memWrite (buf : Buffer) (addr : Nat) (v : Word) {n : Nat} (hn : n ≤ 32) :
    (memRead (memWrite buf addr v n) addr n).toNat = v.toNat % 2 ^ min n (bitLen buf - addr) := by
  refine Nat.eq_of_testBit_eq fun i => ?_
  rw [testBit_memRead _ _ _ _ hn, bitRead_memWrite, Nat.testBit_mod_two_pow]
  by_cases hin : i < n
  · by_cases hend : addr + i < bitLen buf
    · have hstored : i < bitLen buf - addr := by omega
      simp [hin, hend, hstored, BitVec.getLsbD]
    · have hdropped : ¬ i < bitLen buf - addr := by omega
      simp [hend, hdropped, bitRead_beyond (Nat.le_of_not_lt hend)]
  · simp [hin]

/-- Settles O29: the port that took the write takes the read, and the read finds what the write stored. -/
theorem setBitsReadsBack : Obligations.SetBitsReadsBack := by
  intro s buf v offset width hp hpos hw
  have hread : max offset (offset + width - 1) - min offset (offset + width - 1) < 32 := by omega
  refine ⟨memWrite buf offset v width, _, exec_setBits hp hw,
    exec_readBits (portAdmits_read_of_set (length_memWrite buf offset v width).symm hp) hread, ?_⟩
  rw [readWindow_offset_width _ _ hpos, toNat_memRead_memWrite buf offset v hw, bitLen]

end Sys2Proof.Machine
end

section
/-! PROOFS. Shaped segments (41_segmentcodec.md): what READSEGMENTS answers, and writing back what was read. -/

namespace Sys2Proof.Machine

/-! ### Ports -/

/-- A port that takes a shape takes every field's window as READBITS's ends name it: both ends lie at or below the shape's
total (R6, R110). -/
theorem portAdmits_readBits_field {c : Config} {buf : Buffer} {shape : List Nat} {i w : Nat}
    (hp : portAdmits c (.readSegments buf shape) = true) (hi : shape[i]? = some w) :
    portAdmits c (.readBits buf (shape.take i).sum ((shape.take i).sum + w - 1)) = true := by
  have hend : (shape.take i).sum + w ≤ shape.sum := take_sum_le shape i w hi
  simp only [portAdmits, shapeFits, shapeTotal, Bool.and_eq_true] at hp ⊢
  obtain ⟨hbuf, -, htotal⟩ := hp
  exact ⟨⟨hbuf, posFits_mono (by omega) htotal⟩, posFits_mono (by omega) htotal⟩

/-- The port of WRITESEGMENTS is that of READSEGMENTS: of a buffer only its length matters to it, and of the values nothing
(R6). -/
theorem portAdmits_writeSegments_length {c : Config} {x y : Buffer} {shape : List Nat} {vs : List Word}
    (h : x.length = y.length) :
    portAdmits c (.writeSegments x shape vs) = portAdmits c (.readSegments y shape) := by
  rw [portAdmits, portAdmits, h]

/-! ### Reading a shape -/

/-- Field `i` of a buffer's segments is the window at the sum of the widths before it (R110, R111). -/
theorem getElem?_readFields_zero (buf : Buffer) {shape : List Nat} {i w : Nat} (hi : shape[i]? = some w) :
    (readFields buf 0 shape)[i]? = some (memRead buf (shape.take i).sum w) := by
  rw [getElem?_readFields, hi, Nat.zero_add]
  rfl

/-- Settles O31: value `i` is field `i`'s window, which is what READBITS reads between the field's ends; the port that took the
shape takes them, and beyond the buffer the window reads as 0 (R33). -/
theorem readSegmentsAnswersEveryField : Obligations.ReadSegmentsAnswersEveryField := by
  intro s buf shape hp hshape
  refine ⟨_, exec_readSegments hp hshape, length_readFields _ _ _, fun i w hi => ?_⟩
  obtain ⟨hpos, hw⟩ := hshape w (List.mem_of_getElem? hi)
  refine ⟨_, getElem?_readFields_zero buf hi, toNat_memRead_lt _ _ _ hw, ?_, memRead_beyond hw⟩
  rw [exec_readBits (portAdmits_readBits_field hp hi) (by omega), readWindow_offset_width _ _ hpos]

/-! ### Writing back what was read -/

/-- Writing the values read from `x` into `y` copies every bit the shape covers and `y` holds: the bit lies in a field, the
field's value has it, and the walk stores it (R110, R113). -/
theorem bitRead_writeFields_readFields (x y : Buffer) {shape : List Nat} (hshape : ∀ w ∈ shape, w ≤ 32) {p : Nat}
    (hp : p < shape.sum) (hy : p < bitLen y) :
    bitRead (writeFields y 0 shape (readFields x 0 shape)) p = bitRead x p := by
  obtain ⟨i, w, j, hi, hj, rfl⟩ := field_cover shape p hp
  have hfield := bitRead_writeFields_field y 0 shape _ i j w _ hi (getElem?_readFields_zero x hi) hj
  simp only [fieldStart, Nat.zero_add] at hfield
  rw [hfield hy, getLsbD_memRead _ _ _ _ (hshape w (List.mem_of_getElem? hi)), decide_eq_true hj, Bool.true_and]

/-- A shape that covers the whole buffer carries it over, bit for bit (R116). -/
theorem writeFields_readFields {x y : Buffer} {shape : List Nat} (hshape : ∀ w ∈ shape, w ≤ 32)
    (htotal : shape.sum = bitLen x) (hl : y.length = x.length) :
    writeFields y 0 shape (readFields x 0 shape) = x := by
  have hbits : bitLen y = bitLen x := by rw [bitLen, bitLen, hl]
  refine buffer_ext ((length_writeFields _ _ _ _).trans hl) fun p => ?_
  by_cases hp : p < bitLen x
  · exact bitRead_writeFields_readFields x y hshape (htotal ▸ hp) (hbits ▸ hp)
  · have hend : bitLen x ≤ p := Nat.le_of_not_lt hp
    rw [bitRead_beyond hend, bitRead_beyond (by rwa [bitLen_writeFields, hbits])]

/-- Settles O36: the port that took the read takes the write, one value a field is no more than WRITESEGMENTS allows, and the
fields cover every bit of the buffer. -/
theorem segmentRoundTrip : Obligations.SegmentRoundTrip := by
  intro s buf buf' shape hp htotal hl hshape
  have hp' : portAdmits s.config (.writeSegments buf' shape (readFields buf 0 shape)) = true :=
    (portAdmits_writeSegments_length hl).trans hp
  refine ⟨_, exec_readSegments hp hshape, ?_⟩
  rw [exec_writeSegments hp' hshape (length_readFields _ _ _).le,
    writeFields_readFields (fun w hw => (hshape w hw).2) htotal hl]

end Sys2Proof.Machine
end

section
/-! PROOFS. Packet frames (43_packetframe.md): READPACKET's fields as slices of the frame's u64, and the u64 of the frame that
WRITEPACKET builds. -/

namespace Sys2Proof.Machine

/-! ### Reading a frame -/

/-- A packet's type is the low three bits of the frame's u64 (R60, R61). -/
theorem type_packetOfFrame (buf : Buffer) : (packetOfFrame buf).type.toNat = frameWord buf % 2 ^ 3 := by
  rw [packetOfFrame_eq, memRead_frame buf 0 3 (by decide) (by decide), pow_zero, Nat.div_one]

/-- A packet's id is the seven bits above the type (R60, R61). -/
theorem id_packetOfFrame (buf : Buffer) : (packetOfFrame buf).id.toNat = frameWord buf / 2 ^ 3 % 2 ^ 7 := by
  rw [packetOfFrame_eq, memRead_frame buf 3 7 (by decide) (by decide)]

/-- DECODEFLOAT18 on a code's slice of the frame's u64 answers what READPACKET makes of that window (R61, R161). -/
theorem exec_decodeFloat18_frame (s : State) (buf : Buffer) {a : Nat} (h : a + 18 ≤ 64) :
    exec (.decodeFloat18 (BitVec.ofNat 18 (frameWord buf / 2 ^ a))) s =
      .next { s with responses := .value (floatOfCode ((memRead buf a 18).setWidth 18)) :: s.responses } := by
  rw [code_frame buf a h, exec_decodeFloat18]

/-- Settles O51: each of the five windows lies inside the 64 bits, so it is its slice of the frame's u64, whatever the
buffer's length (R162). -/
theorem readPacketAnswersTheFrame : Obligations.ReadPacketAnswersTheFrame := by
  intro s buf hp
  exact ⟨rfl, packetOfFrame buf, exec_readPacket hp, type_packetOfFrame buf, id_packetOfFrame buf,
    exec_decodeFloat18_frame s buf (by decide), exec_decodeFloat18_frame s buf (by decide),
    exec_decodeFloat18_frame s buf (by decide)⟩

/-! ### Writing a frame -/

/-- A frame built from fields has the eight bytes of the fresh buffer (R164). -/
theorem length_frameOfFields (type id : Word) (c1 c2 c3 : Code18) : (frameOfFields type id c1 c2 c3).length = 8 :=
  length_writeFields _ _ _ _

/-- ENCODEFLOAT18 of a word that is no NaN answers the code WRITEPACKET packs for it, whatever number its draw would have had
(42_minifloat18.md R141). -/
theorem exec_encodeFloat18_anyDraw {w : F32} (draw : Nat) (s : State) (h : f32IsNaN w = false) :
    exec (.encodeFloat18 w) s = .next { s with responses := .code (codeOfFloat draw w) :: s.responses } := by
  rw [exec_encodeFloat18 h, codeOfFloat_notNaN h]

/-- Settles O53: the frame's three codes are those of `frameOfPacket`, NaN data taking their draws one after another; their
u64 is that of the fields side by side, and a code that took no draw is ENCODEFLOAT18's. -/
theorem writePacketBuildsTheFrame : Obligations.WritePacketBuildsTheFrame := by
  intro s p
  refine ⟨rfl, frameOfPacket s.draws p, _, _, _, ?_, length_frameOfFields _ _ _ _ _,
    frameWord_frameOfFields _ _ _ _ _, exec_encodeFloat18_anyDraw _ s, exec_encodeFloat18_anyDraw _ s,
    exec_encodeFloat18_anyDraw _ s⟩
  rw [exec_writePacket, packetDraws_eq]

end Sys2Proof.Machine
end

section
/-! PROOFS. Exceptions (60_exceptions.md): the block raises no fault (R190), and the reasons for a refusal are the closed list of
R193. -/

namespace Sys2Proof.Machine

/-! ### Operations -/

/-- The refusals of R193 that a meaning raises, its port's included. -/
def meaningRefusals : List Refusal := [.windowTooWide, .badShapeEntry, .valueCountMismatch, .portLimit]

/-- Outside its domain an operation is refused for a reason of the list; the last six have no operands outside it. -/
theorem domainRefusal_mem {i : Instr} (h : i.wf = false) : domainRefusal i ∈ meaningRefusals := by
  cases i with
  | readBits | setBits | readSegments => simp [domainRefusal, meaningRefusals]
  | writeSegments buf shape values => simp only [domainRefusal]; split <;> simp [meaningRefusals]
  | decodeFloat18 | encodeFloat18 | readPacket | writePacket | typeToString | stringToType =>
    simp [Instr.wf] at h

/-- An operation answers a next state, or its port or its meaning refuses it for a reason of the list. -/
theorem exec_next_or_refused (i : Instr) (s : State) :
    (∃ t, exec i s = .next t) ∨ ∃ e ∈ meaningRefusals, exec i s = .refused e := by
  rw [exec_eq]
  split
  · split
    · exact .inl ⟨_, rfl⟩
    · rename_i hw
      exact .inr ⟨_, domainRefusal_mem (Bool.eq_false_iff.mpr hw), rfl⟩
  · exact .inr ⟨.portLimit, by simp [meaningRefusals], rfl⟩

/-! ### Steps -/

/-- The refusals of R193, which are those of a step. -/
def stepRefusals : List Refusal :=
  [.windowTooWide, .badShapeEntry, .valueCountMismatch, .reservedSelector, .bufferRace, .portLimit]

/-- A step raises every refusal that a meaning raises. -/
theorem meaningRefusals_subset : meaningRefusals ⊆ stepRefusals := by decide

/-- A request that decodes to no operation is refused for its selector (30_encoding.md R72). -/
theorem step_reserved {s : State} {r : Request} {rest : List Request} {op : BitVec 4} (hp : s.pending = r :: rest)
    (hi : issue s.mem r = .error (.reservedSelector op)) : step s = .refused .reservedSelector := by
  simp only [step, hp, hi]

/-- A request that decodes and races with those issued alongside it is refused (20_memory.md R45). -/
theorem step_race {s : State} {r : Request} {rest : List Request} {i : Instr} (hp : s.pending = r :: rest)
    (hi : issue s.mem r = .ok i) (hr : hasRace (simultaneous (r :: rest)) = true) : step s = .refused .bufferRace := by
  simp only [step, hp, hi, hr, if_true]

/-- A step answers a next state, or is refused for its selector, for a race, or as its operation is. -/
theorem step_next_or_refused (s : State) :
    (∃ t, step s = .next t) ∨ ∃ e ∈ stepRefusals, step s = .refused e := by
  cases hp : s.pending with
  | nil => exact .inl ⟨s, step_idle hp⟩
  | cons r rest =>
    obtain ⟨i, hi, -, -⟩ | ⟨hi, -⟩ := decode_cases r.op (operandsAt s.mem r)
    · cases hr : hasRace (simultaneous (r :: rest)) with
      | true => exact .inr ⟨_, by simp [stepRefusals], step_race hp hi hr⟩
      | false =>
        rw [step_issued hp hi hr]
        obtain ⟨t, ht⟩ | ⟨e, he, hx⟩ := exec_next_or_refused i { s with pending := rest }
        · rw [ht]
          exact .inl ⟨_, deliver_next _ _⟩
        · rw [hx]
          exact .inr ⟨e, meaningRefusals_subset he, deliver_refused _ _⟩
    · exact .inr ⟨_, by simp [stepRefusals], step_reserved hp hi⟩

/-- Settles O11: an operation stops at its port or at the edge of its domain only, and a step adds the selector and the race. -/
theorem everyAnswerIsNextOrAListedRefusal : Obligations.EveryAnswerIsNextOrAListedRefusal :=
  ⟨exec_next_or_refused, step_next_or_refused⟩

end Sys2Proof.Machine
end

section
/-! PROOFS. What completes (60_exceptions.md R193, 92_eei_decisions.md D27): an operation on its domain behind a port that takes
it, and a step whose next request is safe. -/

namespace Sys2Proof.Machine

/-- An operation completes exactly when its port takes the operands and they lie in its domain. -/
theorem exec_next_iff {i : Instr} {s : State} :
    (∃ t, exec i s = .next t) ↔ (portAdmits s.config i = true ∧ i.wf = true) := by
  constructor
  · rintro ⟨t, ht⟩
    obtain ⟨hport, hwf, -⟩ := exec_eq_next ht
    exact ⟨hport, hwf⟩
  · rintro ⟨hport, hwf⟩
    exact ⟨_, exec_completes hport hwf⟩

/-- Settles O12: the inversion of exec for one direction, its completion on the domain for the other. -/
theorem operationsCompleteExactlyOnTheirDomain : Obligations.OperationsCompleteExactlyOnTheirDomain :=
  fun _ _ => exec_next_iff

/-- With nothing pending there is nothing to refuse (70_reset_and_hazards.md R220). -/
theorem safe_idle {s : State} (hp : s.pending = []) : s.safe = true := by
  simp only [State.safe, hp]

/-- A pending request is safe exactly when it decodes, does not race, fits the ports and lies in its operation's domain. -/
theorem safe_pending_iff {s : State} {r : Request} {rest : List Request} (hp : s.pending = r :: rest) :
    s.safe = true ↔ ∃ i, issue s.mem r = .ok i ∧ hasRace (simultaneous s.pending) = false ∧
      portAdmits s.config i = true ∧ i.wf = true := by
  cases hi : issue s.mem r with
  | error e => simp [State.safe, hp, hi]
  | ok i => simp [State.safe, hp, hi, and_assoc]

/-- A step answers a next state exactly when the next request is safe. -/
theorem safe_iff_step_next (s : State) : s.safe = true ↔ ∃ t, step s = .next t := by
  cases hp : s.pending with
  | nil => exact iff_of_true (safe_idle hp) ⟨s, step_idle hp⟩
  | cons r rest =>
    rw [safe_pending_iff hp]
    constructor
    · rintro ⟨i, hi, hrace, hport, hwf⟩
      exact ⟨_, step_serves hp hi hrace hport hwf⟩
    · rintro ⟨t, ht⟩
      obtain ⟨i, hi, hrace, hport, hwf, -⟩ := step_served hp ht
      exact ⟨i, hi, hrace, hport, hwf⟩

/-- A step never both completes and is refused, and it does one of the two: it is refused exactly when it does not complete. -/
theorem step_refused_iff (s : State) : (∃ e, step s = .refused e) ↔ ¬ ∃ t, step s = .next t := by
  constructor
  · rintro ⟨e, he⟩ ⟨t, ht⟩
    cases he.symm.trans ht
  · intro hnext
    obtain ⟨e, -, he⟩ := (step_next_or_refused s).resolve_left hnext
    exact ⟨e, he⟩

/-- Settles O15: a safe request completes, and what does not complete is refused. -/
theorem stepCompletesExactlyWhenSafe : Obligations.StepCompletesExactlyWhenSafe := by
  intro s
  refine ⟨safe_iff_step_next s, ?_⟩
  rw [step_refused_iff, ← safe_iff_step_next, Bool.not_eq_true]

end Sys2Proof.Machine
end

section
/-! PROOFS. Refusals (60_exceptions.md R193, R195): behind its port an operation outside its domain is refused for its operands,
a reserved selector before anything else, and a race before the operation's own refusals. -/

namespace Sys2Proof.Machine

/-! ### Operations outside their domain -/

/-- Behind a port that takes the operands, an operation outside its domain gets its own refusal (R195). -/
theorem exec_refuses {i : Instr} {s : State} (hp : portAdmits s.config i = true) (hw : i.wf = false) :
    exec i s = .refused (domainRefusal i) := by
  rw [exec_eq, if_pos hp, if_neg (by simp [hw])]

/-- Settles O26: a window wider than 32 bits lies outside the domain of both window operations. -/
theorem wideWindowsAreRefused : Obligations.WideWindowsAreRefused :=
  ⟨fun _ _ _ _ hp hw => exec_refuses hp (decide_eq_false (Nat.not_lt.mpr hw)),
    fun _ _ _ _ _ hp hw => exec_refuses hp (decide_eq_false (Nat.not_le.mpr hw))⟩

/-- READSEGMENTS refuses a shape outside the domain (41_segmentcodec.md R115). -/
theorem exec_readSegments_badShape {s : State} {buf : Buffer} {shape : List Nat}
    (hp : portAdmits s.config (.readSegments buf shape) = true) (h : shapeOk shape = false) :
    exec (.readSegments buf shape) s = .refused .badShapeEntry :=
  exec_refuses hp h

/-- WRITESEGMENTS refuses a shape outside the domain, whatever the values (R115, R195). -/
theorem exec_writeSegments_badShape {s : State} {buf : Buffer} {shape : List Nat} {values : List Word}
    (hp : portAdmits s.config (.writeSegments buf shape values) = true) (h : shapeOk shape = false) :
    exec (.writeSegments buf shape values) s = .refused .badShapeEntry := by
  rw [exec_refuses hp (by simp [Instr.wf, h]), domainRefusal, if_neg (by simp [h])]

/-- WRITESEGMENTS on a good shape refuses more values than fields (R114, R195). -/
theorem exec_writeSegments_tooManyValues {s : State} {buf : Buffer} {shape : List Nat} {values : List Word}
    (hp : portAdmits s.config (.writeSegments buf shape values) = true) (h : shapeOk shape = true)
    (hl : shape.length < values.length) :
    exec (.writeSegments buf shape values) s = .refused .valueCountMismatch := by
  rw [exec_refuses hp (by simp [Instr.wf, hl]), domainRefusal, if_pos h]

/-- Settles O35: one bad entry puts the whole shape outside the domain of both operations. -/
theorem badShapesAreRefused : Obligations.BadShapesAreRefused :=
  fun _ _ _ _ hbad =>
    ⟨fun hp => exec_readSegments_badShape hp (not_shapeOk hbad),
      fun hp => exec_writeSegments_badShape hp (not_shapeOk hbad)⟩

/-- Settles O14: the port comes first, then the shape, then the number of values. -/
theorem refusalsComeInTheirOrder : Obligations.RefusalsComeInTheirOrder := by
  refine ⟨fun i s hp => ?_, ?_, ?_⟩
  · rw [exec_eq, if_neg (by simp [hp])]
  · exact fun s buf shape values hp hbad => exec_writeSegments_badShape hp (not_shapeOk hbad)
  · exact fun s buf shape values hp hshape hl =>
      exec_writeSegments_tooManyValues hp ((shapeOk_iff shape).mpr hshape) hl

/-! ### Steps -/

/-- No meaning raises ReservedSelector (R193). -/
theorem exec_ne_reservedSelector (i : Instr) (s : State) : exec i s ≠ .refused .reservedSelector := by
  intro h
  obtain ⟨t, ht⟩ | ⟨e, he, hx⟩ := exec_next_or_refused i s
  · cases ht.symm.trans h
  · cases hx.symm.trans h
    exact absurd he (by decide)

/-- Delivery refuses exactly what the operation refused. -/
theorem deliver_eq_refused {d : Option Nat} {o : Host.Outcome State Fault Refusal} {e : Refusal}
    (h : deliver d o = .refused e) : o = .refused e := by
  cases o with
  | next u => cases h
  | fault f => cases f
  | refused r => exact h

/-- A request that decodes is not refused for its selector (R72). -/
theorem step_ne_reservedSelector {s : State} {r : Request} {rest : List Request} {i : Instr} (hp : s.pending = r :: rest)
    (hi : issue s.mem r = .ok i) : step s ≠ .refused .reservedSelector := by
  cases hr : hasRace (simultaneous (r :: rest)) with
  | true => rw [step_race hp hi hr]; nofun
  | false =>
    rw [step_issued hp hi hr]
    exact fun h => exec_ne_reservedSelector i _ (deliver_eq_refused h)

/-- Settles O6: a selector of 10 or more decodes to nothing, and every other one decodes. -/
theorem reservedSelectorsAreRefused : Obligations.ReservedSelectorsAreRefused := by
  intro s r rest hp
  obtain ⟨i, hi, -, hop⟩ | ⟨hi, hop⟩ := decode_cases r.op (operandsAt s.mem r)
  · exact iff_of_false (step_ne_reservedSelector hp hi) (Nat.not_le.mpr hop)
  · exact iff_of_true (step_reserved hp hi) hop

/-- Two requests race when one writes a buffer that the other touches (20_memory.md R45). -/
theorem races_iff (r q : Request) :
    races r q = true ↔ (∃ k ∈ writtenBuffers r, k ∈ touchedBuffers q) ∨ ∃ k ∈ writtenBuffers q, k ∈ touchedBuffers r := by
  simp [races]

/-- The next request is always one of those issued at this moment (log entry 5). -/
theorem simultaneous_cons (r : Request) (rest : List Request) :
    ∃ more, simultaneous (r :: rest) = r :: more := by
  rw [simultaneous]
  split <;> exact ⟨_, rfl⟩

/-- A request that races with the one issued alongside it makes a race, whatever is issued behind them. -/
theorem hasRace_of_races {r q : Request} {rest : List Request} (ha : r.alongside = true) (h : races r q = true) :
    hasRace (simultaneous (r :: q :: rest)) = true := by
  obtain ⟨more, hmore⟩ := simultaneous_cons q rest
  rw [simultaneous, if_pos ha, hmore]
  simp [hasRace, h]

/-- Settles O20: the two requests race, and a selector below 10 decodes, so the race is the first refusal. -/
theorem simultaneousWriteIsARace : Obligations.SimultaneousWriteIsARace := by
  intro s r q rest k hp ha hop h
  have hraces : races r q = true :=
    (races_iff r q).mpr (h.imp (fun ⟨hw, ht⟩ => ⟨k, hw, ht⟩) (fun ⟨ht, hw⟩ => ⟨k, hw, ht⟩))
  obtain ⟨i, hi, -, -⟩ | ⟨-, hreserved⟩ := decode_cases r.op (operandsAt s.mem r)
  · exact step_race hp hi (hasRace_of_races ha hraces)
  · omega

end Sys2Proof.Machine
end

section
/-! PROOFS. Shaped segments (41_segmentcodec.md): what WRITESEGMENTS writes, that it is a walk of SETBITS, that READSEGMENTS
looks at its fields only, and reading written segments back. -/

namespace Sys2Proof.Machine

/-! ### What is written -/

/-- A position inside field `i` of a buffer written from its start holds the bit of the field's value (R110, R113). -/
theorem bitRead_writeFields_zero {buf : Buffer} {shape : List Nat} {values : List Word} {i j w : Nat} {v : Word}
    (hi : shape[i]? = some w) (hv : values[i]? = some v) (hj : j < w) (hl : (shape.take i).sum + j < bitLen buf) :
    bitRead (writeFields buf 0 shape values) ((shape.take i).sum + j) = v.getLsbD j := by
  have hfield := bitRead_writeFields_field buf 0 shape values i j w v hi hv hj
  rw [Nat.zero_add] at hfield
  exact hfield hl

/-- Settles O33: a position in a field that has a value holds the value's bit, and the walk ends where the values end. -/
theorem writeSegmentsWritesItsFields : Obligations.WriteSegmentsWritesItsFields := by
  intro s buf shape values hp hshape hvalues
  refine ⟨_, exec_writeSegments hp hshape hvalues, length_writeFields _ _ _ _, ?_, fun p h => ?_⟩
  · exact fun i j w v hi hv hj hl => bitRead_writeFields_zero hi hv hj hl
  · exact bitRead_writeFields_after _ _ _ _ _ ((Nat.zero_add _).trans_le h)

/-! ### One SETBITS a field -/

/-- What is at most a number within a limit is within it. -/
theorem within_mono {limit : Option Nat} {m n : Nat} (h : m ≤ n) (hn : within limit n = true) : within limit m = true := by
  cases limit with
  | none => rfl
  | some k => exact decide_eq_true (h.trans (of_decide_eq_true hn))

/-- A port that takes a shape takes the shape without its last field (R6). -/
theorem portAdmits_writeSegments_init {c : Config} {buf : Buffer} {shape : List Nat} {w : Nat} {vs vs' : List Word}
    (hp : portAdmits c (.writeSegments buf (shape ++ [w]) vs) = true) :
    portAdmits c (.writeSegments buf shape vs') = true := by
  simp only [portAdmits, shapeFits, shapeTotal, Bool.and_eq_true, List.all_append, List.sum_append] at hp ⊢
  obtain ⟨hbuf, ⟨hlen, hentries, -⟩, htotal⟩ := hp
  exact ⟨hbuf, ⟨within_mono (by simp) hlen, hentries⟩, posFits_mono (Nat.le_add_right _ _) htotal⟩

/-- A port that takes a shape takes the SETBITS of its last field, which ends at the shape's total (R6, R110). -/
theorem portAdmits_setBits_last {c : Config} {x y : Buffer} {shape : List Nat} {w : Nat} {vs : List Word} (v : Word)
    (hl : y.length = x.length) (hp : portAdmits c (.writeSegments x (shape ++ [w]) vs) = true) :
    portAdmits c (.setBits y v shape.sum w) = true := by
  simp only [portAdmits, shapeFits, shapeTotal, Bool.and_eq_true, List.sum_append, List.sum_singleton] at hp ⊢
  obtain ⟨hbuf, -, htotal⟩ := hp
  exact ⟨⟨⟨hl ▸ hbuf, posFits_mono (by omega) htotal⟩, posFits_mono (by omega) htotal⟩,
    posFits_mono (by omega) htotal⟩

/-- Settles O34: the walk over one field more is the walk over the others and then that field's window write. -/
theorem writeSegmentsIsOneSetBitsPerField : Obligations.WriteSegmentsIsOneSetBitsPerField := by
  intro s buf shape values w v hp hshape hvalues
  obtain ⟨hinit, hlast⟩ := List.forall_mem_append.mp hshape
  have hw : w ≤ 32 := (hlast w (List.mem_singleton_self w)).2
  have hwritten : (writeFields buf 0 shape values).length = buf.length := length_writeFields _ _ _ _
  refine ⟨_, _, exec_writeSegments (portAdmits_writeSegments_init hp) hinit hvalues.le,
    exec_setBits (portAdmits_setBits_last v hwritten hp) hw, ?_⟩
  rw [exec_writeSegments hp hshape (by simp [hvalues]), writeFields_append _ _ _ _ _ _ hvalues, Nat.zero_add]

/-! ### What is read -/

/-- A window depends on its own positions only. -/
theorem memRead_congr_window {x y : Buffer} {a n : Nat} (hn : n ≤ 32)
    (h : ∀ p, p < a + n → bitRead x p = bitRead y p) : memRead x a n = memRead y a n := by
  refine BitVec.eq_of_getLsbD_eq fun i _ => ?_
  rw [getLsbD_memRead _ _ _ _ hn, getLsbD_memRead _ _ _ _ hn]
  by_cases hi : i < n
  · rw [h _ (by omega)]
  · simp [hi]

/-- The walk from a cursor depends on no position beyond the last field (R111). -/
theorem readFields_congr {x y : Buffer} {cursor : Nat} {shape : List Nat} (hshape : ∀ w ∈ shape, 1 ≤ w ∧ w ≤ 32)
    (h : ∀ p, p < cursor + shape.sum → bitRead x p = bitRead y p) :
    readFields x cursor shape = readFields y cursor shape := by
  induction shape generalizing cursor with
  | nil => rfl
  | cons w shape ih =>
    obtain ⟨hw, hrest⟩ := List.forall_mem_cons.mp hshape
    rw [List.sum_cons] at h
    rw [readFields, readFields, memRead_congr_window hw.2 fun p hp => h p (by omega),
      ih hrest fun p hp => h p (by omega)]

/-- Settles O32: on its domain the answer is the walk over the fields; outside it the refusal looks at the shape only. -/
theorem readSegmentsIgnoresTheTail : Obligations.ReadSegmentsIgnoresTheTail := by
  intro s x y shape hpx hpy h
  by_cases hshape : shapeOk shape = true
  · have hentries := (shapeOk_iff shape).mp hshape
    rw [exec_readSegments hpx hentries, exec_readSegments hpy hentries,
      readFields_congr hentries fun p hp => h p (by omega)]
  · have hbad := Bool.eq_false_iff.mpr hshape
    rw [exec_readSegments_badShape hpx hbad, exec_readSegments_badShape hpy hbad]

/-! ### Reading back what was written -/

/-- A written field inside the buffer reads back as its value modulo the field's size (R117). -/
theorem toNat_memRead_writeFields {buf : Buffer} {shape : List Nat} {values : List Word} {i w : Nat} {v : Word}
    (hi : shape[i]? = some w) (hv : values[i]? = some v) (hw : w ≤ 32) (hfit : (shape.take i).sum + w ≤ bitLen buf) :
    (memRead (writeFields buf 0 shape values) (shape.take i).sum w).toNat = v.toNat % 2 ^ w := by
  refine Nat.eq_of_testBit_eq fun j => ?_
  rw [testBit_memRead _ _ _ _ hw, Nat.testBit_mod_two_pow]
  by_cases hj : j < w
  · rw [bitRead_writeFields_zero hi hv hj (by omega), BitVec.getLsbD]
  · simp [hj]

/-- Settles O37: every field ends at or before the shape's total, so each lies inside the buffer and reads back. -/
theorem writtenSegmentsReadBack : Obligations.WrittenSegmentsReadBack := by
  intro s buf shape values hp hshape hvalues htotal
  have hread : portAdmits s.config (.readSegments (writeFields buf 0 shape values) shape) = true :=
    (portAdmits_writeSegments_length (length_writeFields _ _ _ _).symm).symm.trans hp
  refine ⟨_, _, exec_writeSegments hp hshape hvalues.le, exec_readSegments hread hshape, fun i w v hi hv => ?_⟩
  have hfit : (shape.take i).sum + w ≤ bitLen buf := (take_sum_le shape i w hi).trans htotal
  exact ⟨_, getElem?_readFields_zero _ hi,
    toNat_memRead_writeFields hi hv (hshape w (List.mem_of_getElem? hi)).2 hfit⟩

end Sys2Proof.Machine
end

section
/-! PROOFS. Minifloat18 as numbers (42_minifloat18.md): a code's magnitude, its order, and the quantiser on both sides of it. -/

namespace Sys2Proof.Machine

/-! ### A code's sign and magnitude -/

/-- The 17 bits below a code's sign, exponent field and mantissa as one number (30_encoding.md R62). -/
def codeIndex (c : Code18) : Nat := c.toNat % 2 ^ 17

/-- `2^27` times the magnitude with the 17 bits `n` (R130). -/
def indexValue (n : Nat) : Nat := (4096 + n % 4096) * 2 ^ (n / 4096)

theorem codeIndex_lt (c : Code18) : codeIndex c < 2 ^ 17 := Nat.mod_lt _ (by decide)

/-- The 17 bits are the exponent field above the mantissa (R62). -/
theorem codeIndex_fields (c : Code18) : codeIndex c % 4096 = codeMantissa c ∧ codeIndex c / 4096 = codeExp c := by
  rw [codeIndex, codeMantissa_eq, codeExp_eq]
  omega

/-- A code is its sign and the 17 bits below it. -/
theorem toNat_code (c : Code18) : c.toNat = codeSign c * 2 ^ 17 + codeIndex c := by
  have := c.isLt
  rw [codeSign_eq, codeIndex]
  omega

/-- The next 17 bits have the next larger magnitude: the mantissa grows, or it is full and the exponent grows. -/
theorem indexValue_lt_succ (n : Nat) : indexValue n < indexValue (n + 1) := by
  unfold indexValue
  by_cases hfull : n % 4096 = 4095
  · have hm : (n + 1) % 4096 = 0 := by omega
    have he : (n + 1) / 4096 = n / 4096 + 1 := by omega
    have hpos : 0 < 2 ^ (n / 4096) := by positivity
    rw [hfull, hm, he, pow_succ]
    omega
  · have hm : (n + 1) % 4096 = n % 4096 + 1 := by omega
    have he : (n + 1) / 4096 = n / 4096 := by omega
    rw [hm, he]
    exact Nat.mul_lt_mul_of_pos_right (by omega) (by positivity)

/-- Magnitudes are ordered as the 17 bits are (R134). -/
theorem indexValue_strictMono : StrictMono indexValue := strictMono_nat_of_lt_succ indexValue_lt_succ

/-- The exact value of a decoded code by its sign and its 17 bits (R130, R131). -/
theorem real_floatOfCode_index (c : Code18) :
    f32Real (floatOfCode c) = (-1) ^ codeSign c * ((indexValue (codeIndex c) : ℚ) / 2 ^ 27) := by
  obtain ⟨hm, he⟩ := codeIndex_fields c
  rw [real_floatOfCode, indexValue, hm, he]
  push_cast
  rfl

/-- The magnitude of a decoded code by its 17 bits. -/
theorem abs_floatOfCode (c : Code18) : |f32Real (floatOfCode c)| = (indexValue (codeIndex c) : ℚ) / 2 ^ 27 := by
  rw [real_floatOfCode_index, abs_mul, abs_pow, abs_neg, abs_one, one_pow, one_mul, abs_of_nonneg (by positivity)]

/-- A decoded code with sign 0. -/
theorem real_floatOfCode_pos {c : Code18} (h : codeSign c = 0) :
    f32Real (floatOfCode c) = (indexValue (codeIndex c) : ℚ) / 2 ^ 27 := by
  rw [real_floatOfCode_index, h, pow_zero, one_mul]

/-- A decoded code with sign 1. -/
theorem real_floatOfCode_neg {c : Code18} (h : codeSign c = 1) :
    f32Real (floatOfCode c) = -((indexValue (codeIndex c) : ℚ) / 2 ^ 27) := by
  rw [real_floatOfCode_index, h, pow_one, neg_one_mul]

/-- A decoded code is below zero exactly when its sign is set (R133). -/
theorem floatOfCode_neg_iff (c : Code18) : f32Real (floatOfCode c) < 0 ↔ codeSign c = 1 := by
  rw [real_neg_iff, (fields_floatOfCode c).1]
  exact and_iff_left (scaled_floatOfCode_pos c).ne'

/-- Magnitudes over `2^27` are ordered as the 17 bits are. -/
theorem indexValue_div_lt {m n : Nat} (h : m < n) : (indexValue m : ℚ) / 2 ^ 27 < (indexValue n : ℚ) / 2 ^ 27 :=
  div_lt_div_of_pos_right (Nat.cast_lt.mpr (indexValue_strictMono h)) (by positivity)

theorem indexValue_div_le {m n : Nat} (h : m ≤ n) : (indexValue m : ℚ) / 2 ^ 27 ≤ (indexValue n : ℚ) / 2 ^ 27 :=
  div_le_div_of_nonneg_right (Nat.cast_le.mpr (indexValue_strictMono.monotone h)) (by positivity)

/-- The smallest magnitude is `2^-15` (R130). -/
theorem indexValue_zero : (indexValue 0 : ℚ) / 2 ^ 27 = 2 ^ (-15 : ℤ) := by norm_num [indexValue]

/-- The largest magnitude is 131056 (R130). -/
theorem indexValue_last : (indexValue (2 ^ 17 - 1) : ℚ) / 2 ^ 27 = 131056 := by norm_num [indexValue]

/-- The magnitude of every decoded code lies between the two (R130). -/
theorem abs_floatOfCode_bounds (c : Code18) :
    2 ^ (-15 : ℤ) ≤ |f32Real (floatOfCode c)| ∧ |f32Real (floatOfCode c)| ≤ 131056 := by
  rw [abs_floatOfCode, ← indexValue_zero, ← indexValue_last]
  exact ⟨indexValue_div_le (Nat.zero_le _), indexValue_div_le (Nat.le_sub_one_of_lt (codeIndex_lt c))⟩

/-! ### DECODEFLOAT18 -/

/-- The dyadic value as the formula of R131 writes it. -/
theorem dyadic_eq_formula (m e : Nat) :
    ((4096 + m : ℕ) : ℚ) * 2 ^ e / 2 ^ 27 = (1 + (m : ℚ) / 4096) * 2 ^ ((e : ℤ) - 15) := by
  rw [zpow_sub₀ (by norm_num), zpow_natCast]
  push_cast
  norm_num
  ring

/-- The sign as a power of -1 and by the code's bit 17 (R62). -/
theorem neg_one_pow_codeSign (c : Code18) : (-1 : ℚ) ^ codeSign c = if c.getLsbD 17 then -1 else 1 := by
  have := codeSign_lt c
  rw [codeSign_bit]
  interval_cases codeSign c <;> simp

/-- Settles O38: the dyadic value of a decoded code is the formula's. -/
theorem decodeGivesTheFormulasValue : Obligations.DecodeGivesTheFormulasValue := by
  intro s c
  refine ⟨_, exec_decodeFloat18 s c, finite_floatOfCode c, ?_⟩
  rw [real_floatOfCode, neg_one_pow_codeSign, dyadic_eq_formula, codeMantissa_eq, codeExp_eq, mul_assoc]
  norm_num

/-- Settles O39: the fields of the packed word. -/
theorem decodedWordFields : Obligations.DecodedWordFields := by
  intro s c
  obtain ⟨hsign, hexp, hfrac⟩ := fields_floatOfCode c
  have hlt := codeExp_lt c
  rw [f32Exp_eq, codeExp_eq] at hexp
  rw [f32Frac_eq, codeMantissa_eq] at hfrac
  rw [codeExp_eq] at hlt
  refine ⟨_, exec_decodeFloat18 s c, ?_, hexp, ?_, ?_, hfrac⟩
  · rw [f32Sign_bit, codeSign_bit, hsign]
  · omega
  · omega

/-- The positive code of smallest magnitude (R130). -/
theorem real_floatOfCode_bottom : f32Real (floatOfCode 0x00000) = 2 ^ (-15 : ℤ) :=
  (real_floatOfCode_pos (by decide)).trans indexValue_zero

/-- The negative code of smallest magnitude (R130). -/
theorem real_floatOfCode_negBottom : f32Real (floatOfCode 0x20000) = -(2 ^ (-15 : ℤ)) :=
  (real_floatOfCode_neg (by decide)).trans (congrArg Neg.neg indexValue_zero)

/-- The positive code of largest magnitude (R130). -/
theorem real_floatOfCode_top : f32Real (floatOfCode 0x1FFFF) = 131056 :=
  (real_floatOfCode_pos (by decide)).trans indexValue_last

/-- The negative code of largest magnitude (R130). -/
theorem real_floatOfCode_negTop : f32Real (floatOfCode 0x3FFFF) = -131056 :=
  (real_floatOfCode_neg (by decide)).trans (congrArg Neg.neg indexValue_last)

/-- Settles O40: the two ends of the magnitudes with both signs. -/
theorem everyCodeIsFiniteAndNonZero : Obligations.EveryCodeIsFiniteAndNonZero :=
  ⟨abs_floatOfCode_bounds, real_floatOfCode_bottom, real_floatOfCode_negBottom, real_floatOfCode_top,
    real_floatOfCode_negTop⟩

/-- Two codes with one value have one sign and one magnitude, so they are equal (R134). -/
theorem floatOfCode_real_injective {c1 c2 : Code18} (h : f32Real (floatOfCode c1) = f32Real (floatOfCode c2)) :
    c1 = c2 := by
  have hsign : codeSign c1 = 1 ↔ codeSign c2 = 1 := by rw [← floatOfCode_neg_iff, ← floatOfCode_neg_iff, h]
  have hvalue : indexValue (codeIndex c1) = indexValue (codeIndex c2) := by
    have habs := congrArg abs h
    rw [abs_floatOfCode, abs_floatOfCode, div_left_inj' (by norm_num)] at habs
    exact_mod_cast habs
  have hindex := indexValue_strictMono.injective hvalue
  have := codeSign_lt c1
  have := codeSign_lt c2
  refine BitVec.eq_of_toNat_eq ?_
  rw [toNat_code c1, toNat_code c2]
  omega

/-- A code below `2^17` is positive, and its number is its 17 bits (R62). -/
theorem codeSign_codeIndex_of_lt {c : Code18} (h : c.toNat < 2 ^ 17) : codeSign c = 0 ∧ codeIndex c = c.toNat := by
  rw [codeSign_eq, codeIndex]
  omega

/-- A code from `2^17` on is negative, and its 17 bits are its number less the sign bit (R62). -/
theorem codeSign_codeIndex_of_ge {c : Code18} (h : 2 ^ 17 ≤ c.toNat) : codeSign c = 1 ∧ codeIndex c = c.toNat - 2 ^ 17 := by
  have := c.isLt
  rw [codeSign_eq, codeIndex]
  omega

/-- Settles O41: magnitudes are ordered strictly as the 17 bits are, and the sign is the bit above them. -/
theorem decodingIsInjectiveAndOrdered : Obligations.DecodingIsInjectiveAndOrdered := by
  refine ⟨fun c1 c2 => floatOfCode_real_injective, fun c h => ?_, fun c1 c2 h h2 => ?_, fun c1 c2 h1 h => ?_⟩
  · have hset : (BitVec.ofNat 18 (c.toNat + 2 ^ 17)).toNat = c.toNat + 2 ^ 17 := by
      rw [BitVec.toNat_ofNat]; omega
    obtain ⟨hs, hi⟩ := codeSign_codeIndex_of_lt h
    obtain ⟨hs', hi'⟩ := codeSign_codeIndex_of_ge (c := BitVec.ofNat 18 (c.toNat + 2 ^ 17)) (by omega)
    rw [real_floatOfCode_neg hs', real_floatOfCode_pos hs, hi', hi, hset, Nat.add_sub_cancel]
  · obtain ⟨hs1, hi1⟩ := codeSign_codeIndex_of_lt (h.trans h2)
    obtain ⟨hs2, hi2⟩ := codeSign_codeIndex_of_lt h2
    rw [real_floatOfCode_pos hs1, real_floatOfCode_pos hs2]
    exact indexValue_div_lt (by omega)
  · obtain ⟨hs1, hi1⟩ := codeSign_codeIndex_of_ge h1
    obtain ⟨hs2, hi2⟩ := codeSign_codeIndex_of_ge (h1.trans h.le)
    rw [real_floatOfCode_neg hs1, real_floatOfCode_neg hs2]
    exact neg_lt_neg (indexValue_div_lt (by omega))

end Sys2Proof.Machine
end

section
/-! PROOFS. ENCODEFLOAT18 (42_minifloat18.md R136 to R145): one packing rule for every word that is no NaN, the quantiser on the
fields of the word, the bit transform, the two clamps and the sign. -/

namespace Sys2Proof.Machine

/-! ### The scaled magnitude by exponent field -/

/-- A word with an exponent field above 0 has an implied bit (30_encoding.md R64). -/
theorem f32Scaled_of_exp_pos {w : F32} (h : 0 < f32Exp w) :
    f32Scaled w = (2 ^ 23 + f32Frac w) * 2 ^ (f32Exp w - 1) := by
  rw [f32Scaled, if_neg (by omega)]

/-- Only the two zeros have magnitude 0 (R64). -/
theorem f32Scaled_eq_zero_iff (w : F32) : f32Scaled w = 0 ↔ f32Exp w = 0 ∧ f32Frac w = 0 := by
  by_cases h : f32Exp w = 0
  · simp [f32Scaled, h]
  · have hpos : 0 < (2 ^ 23 + f32Frac w) * 2 ^ (f32Exp w - 1) := by positivity
    rw [f32Scaled_of_exp_pos (by omega)]
    omega

/-- From the exponent field 144 on a magnitude is at or above `2^17` (R138). -/
theorem f32Scaled_of_exp_high {w : F32} (h : 144 ≤ f32Exp w) : 2 ^ 166 ≤ f32Scaled w := by
  rw [f32Scaled_of_exp_pos (by omega)]
  calc 2 ^ 166 = 2 ^ 23 * 2 ^ (144 - 1) := by norm_num
    _ ≤ (2 ^ 23 + f32Frac w) * 2 ^ (f32Exp w - 1) :=
      Nat.mul_le_mul (Nat.le_add_right _ _) (Nat.pow_le_pow_right (by decide) (by omega))

/-- Up to the exponent field 111 a magnitude is below `2^-15` (R139). -/
theorem f32Scaled_of_exp_low {w : F32} (h : f32Exp w ≤ 111) : f32Scaled w < 2 ^ 134 := by
  have hfrac := f32Frac_lt w
  by_cases h0 : f32Exp w = 0
  · rw [f32Scaled, if_pos h0]
    omega
  · rw [f32Scaled_of_exp_pos (by omega)]
    calc (2 ^ 23 + f32Frac w) * 2 ^ (f32Exp w - 1) < 2 ^ 24 * 2 ^ (f32Exp w - 1) :=
          Nat.mul_lt_mul_of_pos_right (by omega) (by positivity)
      _ ≤ 2 ^ 24 * 2 ^ (111 - 1) := Nat.mul_le_mul_left _ (Nat.pow_le_pow_right (by decide) (by omega))
      _ = 2 ^ 134 := by norm_num

/-- An infinity has the largest exponent field (R64). -/
theorem f32Exp_of_inf {w : F32} (h : f32IsInf w = true) : f32Exp w = 255 := by
  simp only [f32IsInf, Bool.and_eq_true, decide_eq_true_eq] at h
  exact h.1

/-! ### The quantiser -/

/-- Between the clamps a magnitude with the fields `E` and `F` keeps its exponent, in the code's bias, and the upper 12 bits of its
fraction (R136, R142). -/
theorem quantise_normal {E F : Nat} (h1 : 112 ≤ E) (h2 : E ≤ 143) (hF : F < 2 ^ 23) :
    quantise ((2 ^ 23 + F) * 2 ^ (E - 1)) = (E - 112, F / 2 ^ 11) := by
  obtain ⟨n, rfl⟩ : ∃ n, E = n + 1 := ⟨E - 1, by omega⟩
  rw [Nat.add_sub_cancel]
  have hl : 2 ^ (n + 23) ≤ (2 ^ 23 + F) * 2 ^ n := by
    rw [pow_add, mul_comm]
    exact Nat.mul_le_mul_right _ (Nat.le_add_right _ _)
  have hh : (2 ^ 23 + F) * 2 ^ n < 2 ^ (n + 23 + 1) := by
    calc (2 ^ 23 + F) * 2 ^ n < 2 ^ 24 * 2 ^ n := Nat.mul_lt_mul_of_pos_right (by omega) (by positivity)
      _ = 2 ^ (n + 23 + 1) := by ring
  have hpos : (2 ^ 23 + F) * 2 ^ n ≠ 0 := ((Nat.two_pow_pos _).trans_le hl).ne'
  have hlog : Nat.log2 ((2 ^ 23 + F) * 2 ^ n) = n + 23 := (Nat.log2_eq_iff hpos).mpr ⟨hl, hh⟩
  have hmant : (2 ^ 23 + F) * 2 ^ n * 4096 / 2 ^ (n + 23) = (2 ^ 23 + F) / 2 ^ 11 := by
    have hnum : (2 ^ 23 + F) * 2 ^ n * 4096 = (2 ^ 23 + F) * 2 ^ (n + 12) := by ring
    have hden : 2 ^ (n + 23) = 2 ^ 11 * 2 ^ (n + 12) := by rw [← pow_add]; congr 1; omega
    rw [hnum, hden, Nat.mul_div_mul_right _ _ (by positivity)]
  rw [quantise_range hlog hl hh (by omega) (by omega), hmant, Prod.mk.injEq]
  omega

/-- From 131056 on a magnitude gets the largest code (R138): beyond `2^17` by the clamp, below it by truncation. -/
theorem quantise_top {m : Nat} (h : 8191 * 2 ^ 153 ≤ m) : quantise m = (31, 4095) := by
  by_cases hclamp : 2 ^ 166 ≤ m
  · exact quantise_overflow hclamp
  · have hl : 2 ^ 165 ≤ m := by omega
    have hh : m < 2 ^ (165 + 1) := Nat.not_le.mp hclamp
    rw [quantise_range ((Nat.log2_eq_iff (by omega)).mpr ⟨hl, hh⟩) hl hh (by decide) (by decide), Prod.mk.injEq]
    omega

/-! ### One packing rule -/

/-- A word that is not zero keeps its sign (R140). -/
theorem encodeSign_of_ne_zero {w : F32} (h : f32Scaled w ≠ 0) : encodeSign w = f32Sign w := by
  rw [encodeSign, if_neg h]

/-- The packing of R145 holds for the infinities too: their fields read as a magnitude lie above the clamp (R138). -/
theorem codeOfNumber_eq (w : F32) :
    codeOfNumber w = packCode (encodeSign w) (quantise (f32Scaled w)).1 (quantise (f32Scaled w)).2 := by
  by_cases hinf : f32IsInf w = true
  · have hexp := f32Exp_of_inf hinf
    have hbig : 2 ^ 166 ≤ f32Scaled w := f32Scaled_of_exp_high (by omega)
    rw [codeOfNumber, if_pos hinf, quantise_overflow hbig, encodeSign_of_ne_zero (by omega)]
  · rw [codeOfNumber, if_neg hinf]

/-- The fields of an encoded word: no carry between them (R145). -/
theorem fields_codeOfNumber (w : F32) :
    codeSign (codeOfNumber w) = encodeSign w ∧ codeExp (codeOfNumber w) = (quantise (f32Scaled w)).1 ∧
      codeMantissa (codeOfNumber w) = (quantise (f32Scaled w)).2 := by
  obtain ⟨he, hm⟩ := quantise_lt (f32Scaled w)
  rw [codeOfNumber_eq]
  exact fields_packCode (encodeSign_lt w) he hm

/-! ### The bit transform -/

/-- The quantiser of a decoded code gives its fields back (R144). -/
theorem quantise_floatOfCode (c : Code18) : quantise (f32Scaled (floatOfCode c)) = (codeExp c, codeMantissa c) := by
  obtain ⟨-, hexp, hfrac⟩ := fields_floatOfCode c
  have he := codeExp_lt c
  have hm := codeMantissa_lt c
  rw [f32Scaled_of_exp_pos (by omega), quantise_normal (by omega) (by omega) (f32Frac_lt _), hexp, hfrac,
    Prod.mk.injEq]
  omega

/-- Encoding what a code decodes to gives the code back (R144). -/
theorem codeOfNumber_floatOfCode (c : Code18) : codeOfNumber (floatOfCode c) = c := by
  rw [codeOfNumber_eq, encodeSign_of_ne_zero (scaled_floatOfCode_pos c).ne', quantise_floatOfCode,
    (fields_floatOfCode c).1, packCode_fields]

/-- A decoded code is no NaN (R132). -/
theorem floatOfCode_notNaN (c : Code18) : f32IsNaN (floatOfCode c) = false :=
  (finite_not_inf (finite_floatOfCode c)).2

/-- Settles O48: a decoded code is finite, and the quantiser finds its fields. -/
theorem encodeUndoesDecode : Obligations.EncodeUndoesDecode := by
  intro s c
  refine ⟨_, exec_decodeFloat18 s c, ?_⟩
  rw [exec_encodeFloat18 (floatOfCode_notNaN c), codeOfNumber_floatOfCode]

/-- The bit transform of R142 on the fields of a word, by its three ranges of the exponent field. -/
def transformFields (S E F : Nat) : Nat :=
  if 144 ≤ E then S * 2 ^ 17 + 31 * 2 ^ 12 + 4095
  else if E ≤ 111 then if E = 0 ∧ F = 0 then 0 else S * 2 ^ 17
  else S * 2 ^ 17 + (E - 112) * 2 ^ 12 + F / 2 ^ 11

/-- The exact rule is the bit transform (R142). -/
theorem codeOfNumber_eq_transform (w : F32) :
    codeOfNumber w = BitVec.ofNat 18 (transformFields (f32Sign w) (f32Exp w) (f32Frac w)) := by
  have hzero := f32Scaled_eq_zero_iff w
  rw [codeOfNumber_eq, packCode, transformFields]
  split_ifs with hhigh hlow h0
  · have hbig := f32Scaled_of_exp_high hhigh
    rw [quantise_overflow hbig, encodeSign_of_ne_zero (by omega)]
  · rw [quantise_underflow (f32Scaled_of_exp_low hlow), encodeSign, if_pos (hzero.mpr h0)]
    rfl
  · rw [quantise_underflow (f32Scaled_of_exp_low hlow), encodeSign_of_ne_zero (fun h => h0 (hzero.mp h)),
      Nat.zero_mul, Nat.add_zero, Nat.add_zero]
  · rw [encodeSign_of_ne_zero (by omega), f32Scaled_of_exp_pos (by omega),
      quantise_normal (by omega) (by omega) (f32Frac_lt w)]

/-- A NaN by the fields of its word (R64). -/
theorem f32IsNaN_iff (w : F32) : f32IsNaN w = true ↔ f32Exp w = 255 ∧ f32Frac w ≠ 0 := by
  simp [f32IsNaN]

/-- ENCODEFLOAT18 of a NaN: some code, and one draw (R141). -/
theorem exec_encodeFloat18_nan {s : State} {w : F32} (h : f32IsNaN w = true) :
    exec (.encodeFloat18 w) s =
      .next { s with responses := .code (Config.encNan s.draws w) :: s.responses, draws := s.draws + 1 } := by
  rw [exec_completes rfl rfl]
  simp only [answerOf, drawCount, codeOfFloat, drawsOf, h, if_true]
  rfl

/-- Settles O46: the free value is the code. -/
theorem encodeOfNaNCompletes : Obligations.EncodeOfNaNCompletes :=
  fun _ _ h => ⟨_, exec_encodeFloat18_nan h⟩

/-- Settles O47: the statement's slices are the word's fields, and on those the packing rule is the transform. -/
theorem encodeIsTheBitTransform : Obligations.EncodeIsTheBitTransform := by
  intro s w
  have hsign : w.toNat / 2 ^ 31 = f32Sign w := (f32Sign_eq w).symm
  have hexp : w.toNat / 2 ^ 23 % 2 ^ 8 = f32Exp w := (f32Exp_eq w).symm
  have hfrac : w.toNat % 2 ^ 23 = f32Frac w := (f32Frac_eq w).symm
  rw [hsign, hexp, hfrac, ← f32IsNaN_iff]
  refine ⟨fun h => ⟨_, _, exec_encodeFloat18_nan h, rfl⟩, fun h => ?_⟩
  rw [exec_encodeFloat18 (Bool.eq_false_iff.mpr h), codeOfNumber_eq_transform, transformFields]

/-! ### The clamps and the sign -/

/-- The threshold of the largest code on the scaled magnitude (R138). -/
theorem top_threshold (w : F32) : 131056 ≤ |f32Real w| ↔ 8191 * 2 ^ 153 ≤ f32Scaled w := by
  rw [abs_real, le_div_iff₀ (by positivity)]
  have hscaled : (131056 : ℚ) * 2 ^ 149 = ((8191 * 2 ^ 153 : ℕ) : ℚ) := by norm_num
  rw [hscaled, Nat.cast_le]

/-- The code of largest magnitude with a sign bit (R138). -/
theorem packCode_top (b : Bool) : packCode (if b then 1 else 0) 31 4095 = if b then 0x3FFFF else 0x1FFFF := by
  cases b <;> rfl

/-- The code of smallest magnitude with a sign bit (R139). -/
theorem packCode_bottom (p : Prop) [Decidable p] : packCode (if p then 1 else 0) 0 0 = if p then 0x20000 else 0x00000 := by
  split <;> rfl

/-- A word's sign by its bit 31 (R64). -/
theorem f32Sign_eq_ite (w : F32) : f32Sign w = if w.getLsbD 31 then 1 else 0 := by
  have := f32Sign_lt w
  rw [f32Sign_bit]
  interval_cases f32Sign w <;> rfl

/-- The packed sign by the value (R140). -/
theorem encodeSign_eq_ite (w : F32) : encodeSign w = if f32Real w < 0 then 1 else 0 := by
  have hlt := encodeSign_lt w
  by_cases h : f32Real w < 0
  · rw [if_pos h, (encodeSign_iff w).mpr h]
  · have hne := mt (encodeSign_iff w).mp h
    rw [if_neg h]
    omega

/-- Settles O43: a magnitude from 131056 on, that of an infinity among them, packs to the largest code with the word's sign. -/
theorem encodeClampsOverflow : Obligations.EncodeClampsOverflow := by
  intro s w h
  have hnan : f32IsNaN w = false := h.elim (fun hinf => (inf_not_nan hinf).1) (fun hfin => (finite_not_inf hfin.1).2)
  have hbig : 8191 * 2 ^ 153 ≤ f32Scaled w := by
    obtain hinf | ⟨-, hreal⟩ := h
    · have hexp := f32Exp_of_inf hinf
      have := f32Scaled_of_exp_high (w := w) (by omega)
      omega
    · exact (top_threshold w).mp hreal
  refine ⟨_, ?_, exec_decodeFloat18 s _, ?_⟩
  · rw [exec_encodeFloat18 hnan, codeOfNumber_eq, quantise_top hbig, encodeSign_of_ne_zero (by omega), f32Sign_eq_ite,
      packCode_top]
  · split
    · exact real_floatOfCode_negTop
    · exact real_floatOfCode_top

/-- Settles O44: a magnitude below `2^-15` packs to the smallest code with the sign of the number. -/
theorem encodeClampsUnderflow : Obligations.EncodeClampsUnderflow := by
  intro s w hfin hsmall
  have hlow : f32Scaled w < 2 ^ 134 := Nat.not_le.mp fun h => absurd hsmall (not_lt.mpr ((low_threshold w).mpr h))
  refine ⟨_, ?_, exec_decodeFloat18 s _, ?_⟩
  · rw [exec_encodeFloat18 (finite_not_inf hfin).2, codeOfNumber_eq, quantise_underflow hlow, encodeSign_eq_ite,
      packCode_bottom]
  · split
    · exact real_floatOfCode_negBottom
    · exact real_floatOfCode_bottom

/-- Negative infinity is the infinity with the sign set (R64). -/
theorem eq_negInf_iff (w : F32) : w = 0xFF800000 ↔ f32IsInf w = true ∧ f32Sign w = 1 := by
  constructor
  · rintro rfl
    decide
  · simp only [f32IsInf, Bool.and_eq_true, decide_eq_true_eq]
    rintro ⟨⟨hexp, hfrac⟩, hsign⟩
    rw [← packF32_fields w, hexp, hfrac, hsign]
    rfl

/-- A word of magnitude 0 is one of the two zeros (R64). -/
theorem eq_zero_of_scaled {w : F32} (h : f32Scaled w = 0) : w = 0x00000000 ∨ w = 0x80000000 := by
  obtain ⟨hexp, hfrac⟩ := (f32Scaled_eq_zero_iff w).mp h
  have := f32Sign_lt w
  rw [← packF32_fields w, hexp, hfrac]
  interval_cases f32Sign w
  · exact .inl rfl
  · exact .inr rfl

/-- The packed sign is 1 exactly for negative infinity and for finite values below zero (R140). -/
theorem encodeSign_eq_one_iff {w : F32} (h : f32IsNaN w = false) :
    encodeSign w = 1 ↔ w = 0xFF800000 ∨ (f32IsFinite w = true ∧ f32Real w < 0) := by
  rw [eq_negInf_iff]
  obtain hinf | hfin := not_nan_cases h
  · have hexp := f32Exp_of_inf hinf
    have hpos : f32Scaled w ≠ 0 := by rw [ne_eq, f32Scaled_eq_zero_iff]; omega
    simp [hinf, (inf_not_nan hinf).2, encodeSign_of_ne_zero hpos]
  · simp [hfin, (finite_not_inf hfin).1, encodeSign_iff]

/-- Settles O45: the code's sign is the packed one, which is the word's unless the word is a zero. -/
theorem encodedSignIsThatOfTheNumber : Obligations.EncodedSignIsThatOfTheNumber := by
  refine ⟨fun s w hnan => ⟨_, exec_encodeFloat18 hnan, ?_, fun h0 h1 => ?_⟩, fun s => ⟨?_, ?_⟩⟩
  · rw [codeSign_bit, (fields_codeOfNumber w).1, decide_eq_true_iff, encodeSign_eq_one_iff hnan]
  · have hne : f32Scaled w ≠ 0 := fun h => (eq_zero_of_scaled h).elim h0 h1
    rw [codeSign_bit, f32Sign_bit, (fields_codeOfNumber w).1, encodeSign_of_ne_zero hne]
  · exact exec_encodeFloat18 (by decide)
  · exact exec_encodeFloat18 (by decide)

end Sys2Proof.Machine
end

section
/-! PROOFS. The quantiser as a function on values (42_minifloat18.md R136, R143, R144): the real-number formula, truncation toward
zero, and monotonicity. -/

namespace Sys2Proof.Machine

/-! ### The real-number formula -/

/-- The truncated mantissa in exact arithmetic is the floor of the formula's (R136, R137). -/
theorem mantissa_eq_floor {m k : Nat} {e : ℤ} (hk : (k : ℤ) = e + 149) (hl : 2 ^ k ≤ m) :
    ((m * 4096 / 2 ^ k - 4096 : ℕ) : ℤ) = ⌊((m : ℚ) / 2 ^ 149 / 2 ^ e - 1) * 4096⌋ := by
  have hnorm : ((m : ℚ) / 2 ^ 149 / 2 ^ e - 1) * 4096 = ((m * 4096 : ℕ) : ℚ) / ((2 ^ k : ℕ) : ℚ) - (4096 : ℕ) := by
    rw [← pow_e e k hk, div_div, mul_comm ((2 : ℚ) ^ 149)]
    push_cast
    ring
  have hle : 4096 ≤ m * 4096 / 2 ^ k := (Nat.le_div_iff_mul_le (by positivity)).mpr (by omega)
  rw [hnorm, Int.floor_sub_natCast, Rat.floor_natCast_div_natCast, Nat.cast_sub hle]
  norm_cast

/-- Settles O42: on the ordinary path the binary logarithm of the scaled magnitude is `e + 149`. -/
theorem encodeFollowsTheRealFormula : Obligations.EncodeFollowsTheRealFormula := by
  intro s w e hfin h0 h1 hl hh
  obtain ⟨k, hk, hlog, hlk, hhk, hk0, hk1⟩ := scaled_range h0 h1 hl hh
  obtain ⟨hsign, hexp, hmant⟩ := fields_codeOfNumber w
  rw [quantise_range hlog hlk hhk hk0 hk1] at hexp hmant
  rw [codeExp_eq] at hexp
  rw [codeMantissa_eq] at hmant
  refine ⟨_, exec_encodeFloat18 (finite_not_inf hfin).2, ?_, ?_, ?_⟩
  · rw [codeSign_bit, hsign, decide_eq_true_iff, encodeSign_iff]
  · have hfield : (codeOfNumber w).toNat / 2 ^ 12 % 2 ^ 5 = k + 15 - 149 := hexp
    omega
  · have hfield : (codeOfNumber w).toNat % 2 ^ 12 = f32Scaled w * 4096 / 2 ^ k - 4096 := hmant
    rw [hfield, mantissa_eq_floor hk hlk, abs_real]

/-! ### Truncation -/

/-- On the ordinary path decoding an encoding clears the scaled magnitude's bits below the 13 it keeps (R143). -/
theorem scaled_floatOfCode_codeOfNumber {w : F32} {k : Nat} (hlog : Nat.log2 (f32Scaled w) = k)
    (hl : 2 ^ k ≤ f32Scaled w) (hh : f32Scaled w < 2 ^ (k + 1)) (h1 : 134 ≤ k) (h2 : k ≤ 165) :
    f32Scaled (floatOfCode (codeOfNumber w)) = f32Scaled w / 2 ^ (k - 12) * 2 ^ (k - 12) := by
  obtain ⟨-, hexp, hmant⟩ := fields_codeOfNumber w
  rw [quantise_range hlog hl hh h1 h2] at hexp hmant
  have hle : 4096 ≤ f32Scaled w * 4096 / 2 ^ k := (Nat.le_div_iff_mul_le (by positivity)).mpr (by omega)
  have hpow : 2 ^ k = 2 ^ (k - 12) * 4096 := by
    rw [show (4096 : ℕ) = 2 ^ 12 by norm_num, ← pow_add]
    congr 1
    omega
  have hdiv : f32Scaled w * 4096 / 2 ^ k = f32Scaled w / 2 ^ (k - 12) := by
    rw [hpow, Nat.mul_div_mul_right _ _ (by decide)]
  rw [scaled_floatOfCode, hexp, hmant, Nat.add_sub_cancel' hle, hdiv]
  congr 2
  omega

/-- The value of an encoded and decoded word is below zero exactly when the word's is (R140). -/
theorem floatOfCode_codeOfNumber_neg_iff (w : F32) : f32Real (floatOfCode (codeOfNumber w)) < 0 ↔ f32Real w < 0 := by
  rw [floatOfCode_neg_iff, (fields_codeOfNumber w).1, encodeSign_iff]

/-- The distance of two values with one sign is that of their scaled magnitudes. -/
theorem abs_real_sub {x y : F32} (hs : f32Sign x = f32Sign y) (h : f32Scaled y ≤ f32Scaled x) :
    |f32Real x - f32Real y| = ((f32Scaled x - f32Scaled y : ℕ) : ℚ) / 2 ^ 149 := by
  rw [f32Real_eq_scaled, f32Real_eq_scaled, hs, ← mul_sub, ← sub_div, ← Nat.cast_sub h, abs_mul, abs_pow, abs_neg,
    abs_one, one_pow, one_mul, abs_of_nonneg (by positivity)]

/-- Settles O49: what is cleared is a remainder modulo `2^(k-12)`, where `k - 149` is the value's exponent. -/
theorem decodeAfterEncodeTruncates : Obligations.DecodeAfterEncodeTruncates := by
  intro s w e hfin h0 h1 hl hh
  obtain ⟨k, hk, hlog, hlk, hhk, hk0, hk1⟩ := scaled_range h0 h1 hl hh
  have hscaled := scaled_floatOfCode_codeOfNumber hlog hlk hhk hk0 hk1
  have hle : f32Scaled (floatOfCode (codeOfNumber w)) ≤ f32Scaled w := hscaled ▸ Nat.div_mul_le_self _ _
  have hne : f32Scaled w ≠ 0 := ((Nat.two_pow_pos k).trans_le hlk).ne'
  have hsign : f32Sign w = f32Sign (floatOfCode (codeOfNumber w)) := by
    rw [(fields_floatOfCode _).1, (fields_codeOfNumber w).1, encodeSign_of_ne_zero hne]
  refine ⟨_, _, exec_encodeFloat18 (finite_not_inf hfin).2, exec_decodeFloat18 s _,
    floatOfCode_codeOfNumber_neg_iff w, ?_, ?_⟩
  · rw [abs_real, abs_real]
    exact div_le_div_of_nonneg_right (Nat.cast_le.mpr hle) (by positivity)
  · have hrest : f32Scaled w - f32Scaled (floatOfCode (codeOfNumber w)) < 2 ^ (k - 12) := by
      have hlt := Nat.lt_div_mul_add (a := f32Scaled w) (Nat.two_pow_pos (k - 12))
      omega
    rw [abs_real_sub hsign hle, div_lt_iff₀ (by positivity), pow_e (e - 12) (k - 12) (by omega)]
    exact Nat.cast_lt.mpr hrest

/-! ### Monotonicity -/

/-- The 17 bits below the sign that the quantiser gives a magnitude (R145). -/
def quantiseIndex (m : Nat) : Nat := (quantise m).1 * 4096 + (quantise m).2

/-- They are the 17 bits of an encoded word. -/
theorem codeIndex_codeOfNumber (w : F32) : codeIndex (codeOfNumber w) = quantiseIndex (f32Scaled w) := by
  obtain ⟨-, hexp, hmant⟩ := fields_codeOfNumber w
  obtain ⟨hm, he⟩ := codeIndex_fields (codeOfNumber w)
  rw [quantiseIndex, ← hexp, ← hmant, ← hm, ← he]
  omega

/-- The quantiser is monotonic on magnitudes (R144): by the clamps outside the ordinary path, and on it by the exponent, which is
the binary logarithm, and for one exponent by the truncated mantissa. -/
theorem quantiseIndex_mono {m n : Nat} (h : m ≤ n) : quantiseIndex m ≤ quantiseIndex n := by
  obtain ⟨hem, hmm⟩ := quantise_lt m
  unfold quantiseIndex
  by_cases hlow : m < 2 ^ 134
  · rw [quantise_underflow hlow]
    exact Nat.zero_le _
  by_cases hhigh : 2 ^ 166 ≤ n
  · rw [quantise_overflow hhigh]
    omega
  obtain ⟨hm0, -, hm⟩ := quantise_ordinary (Nat.not_lt.mp hlow) (by omega : m < 2 ^ 166)
  obtain ⟨-, -, hn⟩ := quantise_ordinary (by omega : 2 ^ 134 ≤ n) (Nat.not_le.mp hhigh)
  have hlog : Nat.log2 m ≤ Nat.log2 n := by
    rw [Nat.log2_eq_log_two, Nat.log2_eq_log_two]
    exact Nat.log_mono_right h
  obtain hlt | heq := hlog.lt_or_eq
  · rw [hm] at hmm ⊢
    rw [hn]
    simp only at hmm ⊢
    omega
  · have hmant : m * 4096 / 2 ^ Nat.log2 m ≤ n * 4096 / 2 ^ Nat.log2 m :=
      Nat.div_le_div_right (Nat.mul_le_mul_right _ h)
    rw [hm, hn, ← heq]
    simp only
    omega

/-- The value of an encoded and decoded number that is not below zero. -/
theorem real_quantised_nonneg {w : F32} (h : 0 ≤ f32Real w) :
    f32Real (floatOfCode (codeOfNumber w)) = (indexValue (quantiseIndex (f32Scaled w)) : ℚ) / 2 ^ 27 := by
  have hsign : codeSign (codeOfNumber w) = 0 := by
    rw [(fields_codeOfNumber w).1, encodeSign_eq_ite, if_neg (not_lt.mpr h)]
  rw [real_floatOfCode_pos hsign, codeIndex_codeOfNumber]

/-- The value of an encoded and decoded number below zero. -/
theorem real_quantised_neg {w : F32} (h : f32Real w < 0) :
    f32Real (floatOfCode (codeOfNumber w)) = -((indexValue (quantiseIndex (f32Scaled w)) : ℚ) / 2 ^ 27) := by
  have hsign : codeSign (codeOfNumber w) = 1 := by
    rw [(fields_codeOfNumber w).1, encodeSign_eq_ite, if_pos h]
  rw [real_floatOfCode_neg hsign, codeIndex_codeOfNumber]

/-- Magnitudes are ordered as scaled magnitudes are. -/
theorem scaled_le_of_abs_le {x y : F32} (h : |f32Real x| ≤ |f32Real y|) : f32Scaled x ≤ f32Scaled y := by
  rw [abs_real, abs_real, div_le_div_iff_of_pos_right (by positivity)] at h
  exact_mod_cast h

/-- Encoding and decoding is monotonic on finite values (R144). -/
theorem real_quantised_mono {x y : F32} (h : f32Real x ≤ f32Real y) :
    f32Real (floatOfCode (codeOfNumber x)) ≤ f32Real (floatOfCode (codeOfNumber y)) := by
  obtain hx | hx := lt_or_ge (f32Real x) 0
  · obtain hy | hy := lt_or_ge (f32Real y) 0
    · have habs : |f32Real y| ≤ |f32Real x| := by
        rw [abs_of_neg hx, abs_of_neg hy]
        exact neg_le_neg h
      rw [real_quantised_neg hx, real_quantised_neg hy]
      exact neg_le_neg (indexValue_div_le (quantiseIndex_mono (scaled_le_of_abs_le habs)))
    · have hneg := (floatOfCode_codeOfNumber_neg_iff x).mpr hx
      have hnonneg := mt (floatOfCode_codeOfNumber_neg_iff y).mp (not_lt.mpr hy)
      exact hneg.le.trans (not_lt.mp hnonneg)
  · have hy : 0 ≤ f32Real y := hx.trans h
    have habs : |f32Real x| ≤ |f32Real y| := by rwa [abs_of_nonneg hx, abs_of_nonneg hy]
    rw [real_quantised_nonneg hx, real_quantised_nonneg hy]
    exact indexValue_div_le (quantiseIndex_mono (scaled_le_of_abs_le habs))

/-- Negative infinity decodes from its code as the least value (R138). -/
theorem real_quantised_negInf {w : F32} (hinf : f32IsInf w = true) (hs : f32Sign w = 1) :
    f32Real (floatOfCode (codeOfNumber w)) = -131056 := by
  rw [codeOfNumber, if_pos hinf, hs]
  exact real_floatOfCode_negTop

/-- Infinity decodes from its code as the greatest value (R138). -/
theorem real_quantised_posInf {w : F32} (hinf : f32IsInf w = true) (hs : f32Sign w = 0) :
    f32Real (floatOfCode (codeOfNumber w)) = 131056 := by
  rw [codeOfNumber, if_pos hinf, hs]
  exact real_floatOfCode_top

/-- Settles O50: an infinity at its end of the order decodes to that end of the codes' values; between finite values the quantiser
is monotonic. -/
theorem quantiserIsMonotonic : Obligations.QuantiserIsMonotonic := by
  intro s w1 w2 hnan1 hnan2 hle
  refine ⟨_, _, _, _, exec_encodeFloat18 hnan1, exec_encodeFloat18 hnan2, exec_decodeFloat18 s _,
    exec_decodeFloat18 s _, ?_⟩
  obtain ⟨hinf, hs⟩ | ⟨hinf, hs⟩ | ⟨-, -, hreal⟩ := hle
  · rw [real_quantised_negInf hinf hs]
    exact neg_le_of_abs_le (abs_floatOfCode_bounds _).2
  · rw [real_quantised_posInf hinf hs]
    exact le_of_abs_le (abs_floatOfCode_bounds _).2
  · exact real_quantised_mono hreal

end Sys2Proof.Machine
end

section
/-! PROOFS. Packets and frames (43_packetframe.md): the expansions of READPACKET and WRITEPACKET, frames of another length, and the
two round trips of R169. -/

namespace Sys2Proof.Machine

/-! ### Packets without a NaN -/

/-- A packet carries no NaN when none of its three values is one (42_minifloat18.md R141). -/
theorem carriesNaN_writePacket {p : CommPacket} (h : carriesNaN (.writePacket p) = false) :
    f32IsNaN p.data1 = false ∧ f32IsNaN p.data2 = false ∧ f32IsNaN p.data3 = false := by
  simpa [carriesNaN, and_assoc] using h

/-- Without a NaN the frame is that of the fields and of the three values' codes, whatever the draw counter (R164). -/
theorem frameOfPacket_noNaN {p : CommPacket} (h : carriesNaN (.writePacket p) = false) (draw : Nat) :
    frameOfPacket draw p =
      frameOfFields p.type p.id (codeOfNumber p.data1) (codeOfNumber p.data2) (codeOfNumber p.data3) := by
  obtain ⟨h1, h2, h3⟩ := carriesNaN_writePacket h
  rw [frameOfPacket, codeOfFloat_notNaN h1, codeOfFloat_notNaN h2, codeOfFloat_notNaN h3]

/-- WRITEPACKET of a packet without a NaN: the frame, and no draw (R164). -/
theorem exec_writePacket_noNaN {p : CommPacket} (h : carriesNaN (.writePacket p) = false) (s : State) :
    exec (.writePacket p) s = .next { s with
      responses :=
        .buffer (frameOfFields p.type p.id (codeOfNumber p.data1) (codeOfNumber p.data2) (codeOfNumber p.data3)) ::
          s.responses } := by
  have hdraws : packetDraws p = 0 := drawCount_zero h
  rw [exec_writePacket, hdraws, frameOfPacket_noNaN h]
  rfl

/-! ### The expansions -/

/-- The entries of the frame shape lie in the domain (R160). -/
theorem frameShape_ok : ∀ w ∈ frameShape, 1 ≤ w ∧ w ≤ 32 := by decide

/-- Settles O54: a packet is read window by window, and a frame is written by the walk over the frame shape (R76). -/
theorem packetOperationsAreTheirExpansions : Obligations.PacketOperationsAreTheirExpansions := by
  refine ⟨fun s buf hp hshape => ?_, fun s p hnan hport => ?_⟩
  · exact ⟨memRead buf 0 3, memRead buf 3 7, memRead buf 10 18, memRead buf 28 18, memRead buf 46 18, _, _, _,
      exec_readSegments hshape frameShape_ok, exec_decodeFloat18 s _, exec_decodeFloat18 s _, exec_decodeFloat18 s _,
      exec_readPacket hp⟩
  · obtain ⟨h1, h2, h3⟩ := carriesNaN_writePacket hnan
    exact ⟨_, _, _, _, exec_encodeFloat18 h1, exec_encodeFloat18 h2, exec_encodeFloat18 h3,
      exec_writeSegments (hport _) frameShape_ok (Nat.le_refl 5), exec_writePacket_noNaN hnan s⟩

/-! ### Frames of another length -/

/-- A bit of a buffer whose missing bytes are taken as 0 (R33). -/
theorem bitRead_eq_getD (buf : Buffer) (p : Nat) : bitRead buf p = (buf.getD (p / 8) 0).getLsbD (p % 8) := by
  have hbyte := getD_bitRead buf (p / 8) (p % 8) (Nat.mod_lt _ (by decide))
  rw [Nat.div_add_mod] at hbyte
  exact hbyte.symm

/-- Zero bytes behind a buffer read as the bytes it lacks. -/
theorem getD_append_replicate_zero (buf : Buffer) (n q : Nat) :
    (buf ++ List.replicate n 0).getD q 0 = buf.getD q 0 := by
  obtain hq | hq := Nat.lt_or_ge q buf.length
  · rw [List.getD_append _ _ _ _ hq]
  · rw [List.getD_append_right _ _ _ _ hq, List.getD_eq_default _ _ hq, List.getD_eq_getElem?_getD,
      List.getElem?_replicate]
    split <;> rfl

/-- The first 64 positions of a buffer are those of the buffer zero-padded and cut to 8 bytes (R162). -/
theorem bitRead_padded (buf : Buffer) {p : Nat} (hp : p < 64) :
    bitRead ((buf ++ List.replicate 8 0).take 8) p = bitRead buf p := by
  have hq : p / 8 < 8 := by omega
  rw [bitRead_eq_getD, bitRead_eq_getD, ← getD_append_replicate_zero buf 8]
  simp only [List.getD_eq_getElem?_getD, List.getElem?_take_of_lt hq]

/-- Of a frame only its length matters to the port (R6). -/
theorem portAdmits_readPacket_length {c : Config} {x y : Buffer} (h : x.length = y.length) :
    portAdmits c (.readPacket x) = portAdmits c (.readPacket y) := by
  rw [portAdmits, portAdmits, h]

/-- Settles O52: a packet depends on the first 64 positions only, and padding and cutting keeps those. -/
theorem shortFrameReadsAsZeroPadded : Obligations.ShortFrameReadsAsZeroPadded := by
  intro s buf hp hzero
  have hpacket : packetOfFrame buf = packetOfFrame ((buf ++ zeroFrame).take 8) :=
    packet_congr fun p hp => (bitRead_padded buf hp).symm
  have hlen : ((buf ++ zeroFrame).take 8).length = zeroFrame.length := by simp [zeroFrame]
  rw [exec_readPacket hp, hpacket]
  exact (exec_readPacket ((portAdmits_readPacket_length hlen).trans hzero)).symm

/-! ### The round trips -/

/-- A code widened to a field's value and cut back is itself, so what was read from a frame is written back as it was. -/
theorem setWidth_code_memRead (buf : Buffer) (a : Nat) :
    ((memRead buf a 18).setWidth 18).setWidth 32 = memRead buf a 18 := by
  have hlt := toNat_memRead_lt buf a 18 (by decide)
  refine BitVec.eq_of_toNat_eq ?_
  rw [BitVec.toNat_setWidth, BitVec.toNat_setWidth, Nat.mod_eq_of_lt hlt, Nat.mod_eq_of_lt (BitVec.isLt _)]

/-- A packet that was read carries no NaN (R132). -/
theorem packetOfFrame_noNaN (buf : Buffer) : carriesNaN (.writePacket (packetOfFrame buf)) = false := by
  simp only [carriesNaN, packetOfFrame_eq, floatOfCode_notNaN, Bool.or_false]

/-- The fields of the packet that was read from a frame are written as the frame's segments. -/
theorem frameOfFields_packetOfFrame (buf : Buffer) :
    frameOfFields (packetOfFrame buf).type (packetOfFrame buf).id (codeOfNumber (packetOfFrame buf).data1)
        (codeOfNumber (packetOfFrame buf).data2) (codeOfNumber (packetOfFrame buf).data3) =
      writeFields zeroFrame 0 frameShape (readFields buf 0 frameShape) := by
  simp only [packetOfFrame_eq, codeOfNumber_floatOfCode, frameOfFields, setWidth_code_memRead]
  rfl

/-- Settles O55: encoding undoes decoding on the three codes, so the frame's segments are written back as they were read, and the
frame shape covers all 64 bits. -/
theorem frameRoundTrip : Obligations.FrameRoundTrip := by
  intro s b hl hp
  have htotal : frameShape.sum = bitLen b := by rw [bitLen, hl]; rfl
  have hlen : zeroFrame.length = b.length := hl.symm
  refine ⟨_, exec_readPacket hp, ?_⟩
  rw [exec_writePacket_noNaN (packetOfFrame_noNaN b), frameOfFields_packetOfFrame,
    writeFields_readFields (fun w hw => (frameShape_ok w hw).2) htotal hlen]

/-- A field of a frame that was built from fields, when its value fits it. -/
theorem memRead_frameOfFields {t i : Word} {c1 c2 c3 : Code18} {k w : Nat} {v : Word} (hk : frameShape[k]? = some w)
    (hv : [t, i, c1.setWidth 32, c2.setWidth 32, c3.setWidth 32][k]? = some v) (hlt : v.toNat < 2 ^ w) :
    memRead (frameOfFields t i c1 c2 c3) (frameShape.take k).sum w = v := by
  have hw := (frameShape_ok w (List.mem_of_getElem? hk)).2
  have hfit : (frameShape.take k).sum + w ≤ bitLen zeroFrame := take_sum_le frameShape k w hk
  refine BitVec.eq_of_toNat_eq ?_
  rw [frameOfFields, toNat_memRead_writeFields hk hv hw hfit, Nat.mod_eq_of_lt hlt]

/-- A code widened to a field's value fits its field. -/
theorem toNat_setWidth_code_lt (c : Code18) : (c.setWidth 32).toNat < 2 ^ 18 := by
  have := c.isLt
  rw [BitVec.toNat_setWidth]
  omega

/-- A code widened to a field's value and cut back is itself. -/
theorem setWidth_setWidth_code (c : Code18) : (c.setWidth 32).setWidth 18 = c := by
  rw [BitVec.setWidth_setWidth_of_le _ (by decide), BitVec.setWidth_eq]

/-- Reading a frame that was built from fields gives them back, where type and id fit theirs (R169). -/
theorem packetOfFrame_frameOfFields {t i : Word} (ht : t.toNat ≤ 7) (hi : i.toNat ≤ 127) (c1 c2 c3 : Code18) :
    packetOfFrame (frameOfFields t i c1 c2 c3) = ⟨t, i, floatOfCode c1, floatOfCode c2, floatOfCode c3⟩ := by
  have h0 : memRead (frameOfFields t i c1 c2 c3) 0 3 = t := memRead_frameOfFields (k := 0) rfl rfl (by omega)
  have h1 : memRead (frameOfFields t i c1 c2 c3) 3 7 = i := memRead_frameOfFields (k := 1) rfl rfl (by omega)
  have h2 : memRead (frameOfFields t i c1 c2 c3) 10 18 = c1.setWidth 32 :=
    memRead_frameOfFields (k := 2) rfl rfl (toNat_setWidth_code_lt c1)
  have h3 : memRead (frameOfFields t i c1 c2 c3) 28 18 = c2.setWidth 32 :=
    memRead_frameOfFields (k := 3) rfl rfl (toNat_setWidth_code_lt c2)
  have h4 : memRead (frameOfFields t i c1 c2 c3) 46 18 = c3.setWidth 32 :=
    memRead_frameOfFields (k := 4) rfl rfl (toNat_setWidth_code_lt c3)
  simp only [packetOfFrame_eq, h0, h1, h2, h3, h4, setWidth_setWidth_code]

/-- READPACKET of such a frame, at a port that takes eight bytes. -/
theorem exec_readPacket_frameOfFields {s : State} {t i : Word} (hzero : portAdmits s.config (.readPacket zeroFrame) = true)
    (ht : t.toNat ≤ 7) (hi : i.toNat ≤ 127) (c1 c2 c3 : Code18) :
    exec (.readPacket (frameOfFields t i c1 c2 c3)) s = .next { s with
      responses := .packet ⟨t, i, floatOfCode c1, floatOfCode c2, floatOfCode c3⟩ :: s.responses } := by
  have hlen : (frameOfFields t i c1 c2 c3).length = zeroFrame.length := length_frameOfFields _ _ _ _ _
  rw [exec_readPacket ((portAdmits_readPacket_length hlen).trans hzero), packetOfFrame_frameOfFields ht hi]

/-- Settles O56: the frame's five fields are read back as they were packed, so each value is what its code decodes to. -/
theorem packetRoundTrip : Obligations.PacketRoundTrip := by
  intro s p ht hi hnan hzero
  obtain ⟨h1, h2, h3⟩ := carriesNaN_writePacket hnan
  exact ⟨_, _, _, _, _, exec_writePacket_noNaN hnan s, exec_readPacket_frameOfFields hzero ht hi _ _ _, rfl, rfl,
    exec_encodeFloat18 h1, exec_decodeFloat18 s _, exec_encodeFloat18 h2, exec_decodeFloat18 s _,
    exec_encodeFloat18 h3, exec_decodeFloat18 s _⟩

end Sys2Proof.Machine
end

section
/-! PROOFS. Windows as numbers and as writes (20_memory.md R31, R43; 40_bitwindow.md R94): whole bytes, the bits of a value that
matter, and writes that do not overlap. -/

namespace Sys2Proof.Machine

/-- A window of whole bytes has the bits of their little-endian number (R31). -/
theorem toNat_memRead_bytes (buf : Buffer) (j : Nat) {k : Nat} (hk : k ≤ 4) :
    (memRead buf (8 * j) (8 * k)).toNat = bytesNat buf j k := by
  refine Nat.eq_of_testBit_eq fun p => ?_
  rw [testBit_memRead _ _ _ _ (by omega), testBit_bytesNat]

/-- Settles O25: the window from the first byte's position on, `8k` bits wide. -/
theorem byteWindowIsLittleEndian : Obligations.ByteWindowIsLittleEndian := by
  intro s buf j k hpos hk hp
  refine ⟨_, exec_readBits hp (by omega), ?_⟩
  rw [readWindow_offset_width buf (8 * j) (by omega), toNat_memRead_bytes buf j hk, bytesNat]

/-- A write of `n` bits looks at the value's low `n` bits only (R94). -/
theorem memWrite_congr (buf : Buffer) (addr : Nat) {v v' : Word} {n : Nat} (h : ∀ i < n, v.getLsbD i = v'.getLsbD i) :
    memWrite buf addr v n = memWrite buf addr v' n := by
  induction n with
  | zero => rfl
  | succ n ih => rw [memWrite, memWrite, ih fun i hi => h i (by omega), h n (Nat.lt_succ_self n)]

/-- A value cut to `n` bits has the same low `n` bits. -/
theorem getLsbD_cut (v : Word) {n i : Nat} (h : i < n) :
    (BitVec.ofNat 32 (v.toNat % 2 ^ n)).getLsbD i = v.getLsbD i := by
  rw [BitVec.getLsbD_ofNat, Nat.testBit_mod_two_pow, decide_eq_true h, Bool.true_and]
  by_cases hi : i < 32
  · rw [decide_eq_true hi, Bool.true_and, BitVec.getLsbD]
  · rw [decide_eq_false hi, Bool.false_and, BitVec.getLsbD_of_ge _ _ (Nat.le_of_not_lt hi)]

/-- Settles O28: the port, the domain and the refusal do not look at the value, and the write looks at its low bits only. -/
theorem setBitsIgnoresHighValueBits : Obligations.SetBitsIgnoresHighValueBits := by
  intro s buf v offset width
  have hwrite : writeWindow buf v offset width = writeWindow buf (BitVec.ofNat 32 (v.toNat % 2 ^ width)) offset width :=
    memWrite_congr buf offset fun i hi => (getLsbD_cut v hi).symm
  rw [exec_eq, exec_eq, answerOf, answerOf, hwrite]
  rfl

/-- Writes to windows that do not overlap commute: no position lies in both (R43). -/
theorem memWrite_comm (buf : Buffer) {o1 w1 o2 w2 : Nat} (v1 v2 : Word) (h : o1 + w1 ≤ o2 ∨ o2 + w2 ≤ o1) :
    memWrite (memWrite buf o1 v1 w1) o2 v2 w2 = memWrite (memWrite buf o2 v2 w2) o1 v1 w1 := by
  refine buffer_ext (by simp) fun p => ?_
  simp only [bitRead_memWrite, bitLen_memWrite]
  by_cases hp1 : o1 ≤ p ∧ p < o1 + w1 ∧ p < bitLen buf
  · have hp2 : ¬ (o2 ≤ p ∧ p < o2 + w2 ∧ p < bitLen buf) := by omega
    simp only [if_pos hp1, if_neg hp2]
  · simp only [if_neg hp1]

/-- Settles O30: each port takes the buffer the other write left, which has the same length. -/
theorem disjointWritesCommute : Obligations.DisjointWritesCommute := by
  intro s buf v1 v2 o1 w1 o2 w2 hp1 hp2 hw1 hw2 hdisjoint
  have hp1' : portAdmits s.config (.setBits (memWrite buf o2 v2 w2) v1 o1 w1) = true :=
    (portAdmits_setBits_length (length_memWrite _ _ _ _)).trans hp1
  have hp2' : portAdmits s.config (.setBits (memWrite buf o1 v1 w1) v2 o2 w2) = true :=
    (portAdmits_setBits_length (length_memWrite _ _ _ _)).trans hp2
  refine ⟨_, _, _, exec_setBits hp1 hw1, exec_setBits hp2 hw2, exec_setBits hp2' hw2, ?_⟩
  rw [exec_setBits hp1' hw1, memWrite_comm buf v1 v2 hdisjoint]

end Sys2Proof.Machine
end

section
/-! PROOFS. The type table (43_packetframe.md R166 to R168): what the two look-ups answer, and that they are mutually inverse. -/

namespace Sys2Proof.Machine

/-- A code that stands beside no name is not found (R166). -/
theorem nameOfCode_eq_none {t : List (TypeCode × Name)} {c : TypeCode} (h : ∀ nm, (c, nm) ∉ t) : nameOfCode t c = none :=
  Option.eq_none_iff_forall_ne_some.mpr fun nm hf => h nm (nameOfCode_mem hf)

/-- A name that stands beside no code is not found (R167). -/
theorem codeOfName_eq_none {t : List (TypeCode × Name)} {nm : Name} (h : ∀ c, (c, nm) ∉ t) : codeOfName t nm = none :=
  Option.eq_none_iff_forall_ne_some.mpr fun c hf => h c (codeOfName_mem hf)

/-- TYPETOSTRING of an entry's code answers its name (R166, R168). -/
theorem exec_typeToString_found {s : State} {c : TypeCode} {nm : Name} (hwf : s.config.wf = true)
    (h : (c, nm) ∈ s.config.typeTable) :
    exec (.typeToString c) s = .next { s with responses := .typeName true nm :: s.responses } := by
  rw [exec_typeToString, nameOfCode_some (wf_nodup hwf).1 h, typeNameResponse]

/-- STRINGTOTYPE of an entry's name answers its code (R167, R168). -/
theorem exec_stringToType_found {s : State} {c : TypeCode} {nm : Name} (hwf : s.config.wf = true)
    (hp : portAdmits s.config (.stringToType nm) = true) (h : (c, nm) ∈ s.config.typeTable) :
    exec (.stringToType nm) s = .next { s with responses := .typeCode true c :: s.responses } := by
  rw [exec_stringToType hp, codeOfName_some (wf_nodup hwf).2 h, typeCodeResponse]

/-- Settles O57: distinct codes find their entry, and a code without an entry is not found. -/
theorem typeToStringLooksUpTheTable : Obligations.TypeToStringLooksUpTheTable := by
  intro s tcode hwf
  refine ⟨fun nm h => exec_typeToString_found hwf h, fun h => ⟨[], ?_⟩⟩
  rw [exec_typeToString, nameOfCode_eq_none h, typeNameResponse]

/-- Settles O58: distinct names find their entry, and a name without an entry is not found. -/
theorem stringToTypeLooksUpTheTable : Obligations.StringToTypeLooksUpTheTable := by
  intro s name hwf hp
  refine ⟨fun c h => exec_stringToType_found hwf hp h, fun h => ⟨0, ?_⟩⟩
  rw [exec_stringToType hp, codeOfName_eq_none h, typeCodeResponse]

/-- A found name is the table's (R166). -/
theorem typeNameResponse_found {o : Option Name} {nm : Name} (h : typeNameResponse o = .typeName true nm) : o = some nm := by
  cases o with
  | none => cases h
  | some nm' => cases h; rfl

/-- A found code is the table's (R167). -/
theorem typeCodeResponse_found {o : Option TypeCode} {c : TypeCode} (h : typeCodeResponse o = .typeCode true c) :
    o = some c := by
  cases o with
  | none => cases h
  | some c' => cases h; rfl

/-- What an operation is known to have added is its answer. -/
theorem answerOf_of_exec {i : Instr} {s : State} {x : Response}
    (h : exec i s = .next { s with responses := x :: s.responses }) : answerOf s.config s.draws i = x := by
  obtain ⟨-, -, ht⟩ := exec_eq_next h
  have hresponses := congrArg State.responses ht
  simp only [State.drawn_responses, State.answer_responses] at hresponses
  exact (List.cons.inj hresponses).1.symm

/-- Settles O59: either look-up finds an entry of the table, and the entry answers the other. -/
theorem typeLookupsAreInverse : Obligations.TypeLookupsAreInverse := by
  intro s tcode nm hwf
  constructor
  · intro h hp
    exact exec_stringToType_found hwf hp (nameOfCode_mem (typeNameResponse_found (answerOf_of_exec h)))
  · intro h
    exact exec_typeToString_found hwf (codeOfName_mem (typeCodeResponse_found (answerOf_of_exec h)))

end Sys2Proof.Machine
end

section
/-! PROOFS. Reset (10_state.md R22) and the round trip of decoding (30_encoding.md R70 to R72). -/

namespace Sys2Proof.Machine

/-! ### Reset -/

/-- Settles O1: the reset's fields as they are written, and an idle step. -/
theorem resetLeavesTheBlockIdle : Obligations.ResetLeavesTheBlockIdle :=
  fun c => ⟨State.resetWith_config c, State.resetWith_pending c, State.resetWith_responses c,
    step_idle (State.resetWith_pending c), rfl, rfl, rfl, rfl, rfl, rfl⟩

/-- After reset the memory is empty and nothing was returned, so of the invariant only the table is left. -/
theorem inv_resetWith {c : Config} (h : c.wf = true) : (State.resetWith c).Inv :=
  ⟨h, State.resetWith_wf c, fun _ hr => absurd hr List.not_mem_nil⟩

/-- The default TYPE_TABLE is as R168 asks. -/
theorem wf_default : Config.default.wf = true := by decide

/-- Settles O2: the table is what each configuration brings. -/
theorem resetMeetsTheStateInvariant : Obligations.ResetMeetsTheStateInvariant :=
  ⟨fun _ h => inv_resetWith h, inv_resetWith wf_default⟩

/-! ### Decoding -/

/-- Settles O7: the twelve words, each decoded. -/
theorem tableWordsDecode : Obligations.TableWordsDecode :=
  ⟨rfl, rfl, rfl, rfl, rfl, rfl, rfl, rfl, rfl, rfl, rfl, rfl⟩

/-- Decoding undoes encoding, operation by operation (R70, R71). -/
theorem decode_encode (i : Instr) : decode (encode i).1 (encode i).2 = .ok i := by
  cases i with
  | readBits buf a b => exact Laws.RoundTrip.readBits buf a b
  | setBits buf value offset width => exact Laws.RoundTrip.setBits buf value offset width
  | readSegments buf shape => exact Laws.RoundTrip.readSegments buf shape
  | writeSegments buf shape values => exact Laws.RoundTrip.writeSegments buf shape values
  | decodeFloat18 code => exact Laws.RoundTrip.decodeFloat18 code
  | encodeFloat18 value => exact Laws.RoundTrip.encodeFloat18 value
  | readPacket buf => exact Laws.RoundTrip.readPacket buf
  | writePacket packet => exact Laws.RoundTrip.writePacket packet
  | typeToString tcode => exact Laws.RoundTrip.typeToString tcode
  | stringToType name => exact Laws.RoundTrip.stringToType name

/-- Settles O8: every operation's round trip, and the selector of what decodes. -/
theorem decodedOperationHasItsSelector : Obligations.DecodedOperationHasItsSelector :=
  ⟨decode_encode, fun _ _ _ h => (selector_of_decode h).symm⟩

end Sys2Proof.Machine
end

section
/-! PROOFS. The frame of a step over the caller's buffers, and the order of independent requests (20_memory.md R45). -/

namespace Sys2Proof.Machine

/-! ### The frame of a step -/

/-- A request keeps nothing in a number that is not its `dst`, and nothing at all unless its operation answers a buffer. -/
theorem keptAt_of_not_kept {m : Memory} {r : Request} {i : Instr} {k : Nat} (hi : issue m r = .ok i)
    (hk : ¬ (r.dst = some k ∧ (r.op = 0x1 ∨ r.op = 0x3 ∨ r.op = 0x7))) (c : Config) (n : Nat) (old : Buffer) :
    keptAt (answerOf c n i) r.dst old k = old := by
  unfold keptAt
  split
  · rename_i b k' hanswer hd
    have hop := selector_of_buffer hanswer
    rw [(selector_of_issue hi).1] at hop
    exact if_neg fun (hkk : k = k') => hk ⟨hkk ▸ hd, hop⟩
  · rfl

/-- Settles O16: a served request's answer is all that can be kept, and only in its `dst`. -/
theorem stepChangesOnlyTheKeptBuffer : Obligations.StepChangesOnlyTheKeptBuffer := by
  intro s t r rest hm hp hstep
  obtain ⟨i, hi, -, -, -, rfl⟩ := step_served hp hstep
  refine ⟨by simp, by simp, fun k hk => ?_⟩
  exact (read_keep (s := { s with pending := rest }) hm _ _ _ k).trans (keptAt_of_not_kept hi hk _ _ _)

/-! ### Independent requests -/

/-- The state after an operation without a NaN was served for a request with `dst = d`, with `rest` still pending. -/
def State.serve (s : State) (i : Instr) (d : Option Nat) (rest : List Request) : State :=
  ({ s with pending := rest }.answer (answerOf s.config 0 i)).keep d

section
variable (s : State) (i : Instr) (d : Option Nat) (rest : List Request)

@[simp] theorem State.serve_config : (s.serve i d rest).config = s.config := State.keep_config _ _
@[simp] theorem State.serve_pending : (s.serve i d rest).pending = rest := State.keep_pending _ _
@[simp] theorem State.serve_draws : (s.serve i d rest).draws = s.draws := State.keep_draws _ _
@[simp] theorem State.serve_responses : (s.serve i d rest).responses = answerOf s.config 0 i :: s.responses :=
  State.keep_responses _ _

end

theorem State.serve_wf {s : State} (h : s.mem.wf = true) (i : Instr) (d : Option Nat) (rest : List Request) :
    (s.serve i d rest).mem.wf = true := by
  rw [State.serve]
  refine State.keep_wf ?_ d
  exact h

/-- The caller's buffers after a request was served. -/
theorem read_serve {s : State} (h : s.mem.wf = true) (i : Instr) (d : Option Nat) (rest : List Request) (k : Nat) :
    (s.serve i d rest).mem.read k = keptAt (answerOf s.config 0 i) d (s.mem.read k) k :=
  read_keep (s := { s with pending := rest }) h _ 0 d k

/-- A step with a request without a NaN pending serves it. -/
theorem step_served_noNaN {s t : State} {r : Request} {rest : List Request} (hp : s.pending = r :: rest)
    (hnan : ∀ i, issue s.mem r = .ok i → carriesNaN i = false) (h : step s = .next t) :
    ∃ i, issue s.mem r = .ok i ∧ portAdmits s.config i = true ∧ i.wf = true ∧ t = s.serve i r.dst rest := by
  obtain ⟨i, hi, -, hport, hwf, rfl⟩ := step_served hp h
  refine ⟨i, hi, hport, hwf, ?_⟩
  rw [drawCount_zero (hnan i hi), State.drawn_zero, answerOf_draw (hnan i hi) s.config s.draws 0, State.serve]

/-- The converse: such a request is served. -/
theorem step_serves_noNaN {s : State} {r : Request} {rest : List Request} {i : Instr} (hp : s.pending = r :: rest)
    (hi : issue s.mem r = .ok i) (hrace : hasRace (simultaneous (r :: rest)) = false)
    (hport : portAdmits s.config i = true) (hwf : i.wf = true) (hnan : carriesNaN i = false) :
    step s = .next (s.serve i r.dst rest) := by
  rw [step_serves hp hi (hp ▸ hrace) hport hwf, drawCount_zero hnan, State.drawn_zero,
    answerOf_draw hnan s.config s.draws 0, State.serve]

/-- A request writes only buffers it touches (R45). -/
theorem touched_of_written {r : Request} {k : Nat} (h : k ∈ writtenBuffers r) : k ∈ touchedBuffers r := by
  unfold writtenBuffers at h
  split at h
  case h_1 hop | h_2 hop => simpa only [touchedBuffers, hop] using h
  case h_3 hop => simpa only [touchedBuffers, hop] using h
  case h_4 => exact absurd h List.not_mem_nil

/-- Racing is symmetric (R45). -/
theorem races_comm (r q : Request) : races r q = races q r := Bool.or_comm _ _

/-- Serving a request changes no buffer that it does not write. -/
theorem read_serve_unwritten {s : State} {r : Request} {i : Instr} {k : Nat} (hm : s.mem.wf = true)
    (hi : issue s.mem r = .ok i) (rest : List Request) (hk : k ∉ writtenBuffers r) :
    (s.serve i r.dst rest).mem.read k = s.mem.read k := by
  rw [read_serve hm]
  exact keptAt_of_not_kept hi (fun ⟨hd, hop⟩ => hk (dst_written hd hop)) _ _ _

/-- A request that does not race with another is issued after it as before it. -/
theorem issue_serve {s : State} {r q : Request} {i : Instr} (hm : s.mem.wf = true) (hi : issue s.mem r = .ok i)
    (hraces : races r q = false) (rest : List Request) : issue (s.serve i r.dst rest).mem q = issue s.mem q := by
  refine issue_congr fun k hk => read_serve_unwritten hm hi rest fun hw => ?_
  exact Bool.eq_false_iff.mp hraces ((races_iff r q).mpr (.inl ⟨k, hw, hk⟩))

/-- Two requests that do not race may be issued at the same moment. -/
theorem hasRace_pair {r q : Request} (h : races r q = false) : hasRace (simultaneous [r, q]) = false := by
  cases hr : r.alongside <;> cases hq : q.alongside <;> simp [simultaneous, hasRace, hr, hq, h]

/-- One request races with nothing. -/
theorem hasRace_single (r : Request) : hasRace (simultaneous [r]) = false := by
  cases hr : r.alongside <;> simp [simultaneous, hasRace, hr]

/-- Two requests that do not race leave the same buffers in either order: no number is written by both. -/
theorem serve_mem_comm {s : State} {r q : Request} {i j : Instr} (hm : s.mem.wf = true) (hi : issue s.mem r = .ok i)
    (hj : issue s.mem q = .ok j) (hraces : races r q = false) (rest1 rest2 rest3 rest4 : List Request) :
    ((s.serve i r.dst rest1).serve j q.dst rest2).mem = ((s.serve j q.dst rest3).serve i r.dst rest4).mem := by
  have hi' : issue (s.serve j q.dst rest3).mem r = .ok i := by rw [issue_serve hm hj (races_comm r q ▸ hraces), hi]
  have hj' : issue (s.serve i r.dst rest1).mem q = .ok j := by rw [issue_serve hm hi hraces, hj]
  have hmr := State.serve_wf hm i r.dst rest1
  have hmq := State.serve_wf hm j q.dst rest3
  refine Memory.ext (State.serve_wf hmr _ _ _) (State.serve_wf hmq _ _ _) fun k => ?_
  by_cases hk : k ∈ writtenBuffers r
  · have hkq : k ∉ writtenBuffers q := fun hw =>
      Bool.eq_false_iff.mp hraces ((races_iff r q).mpr (.inl ⟨k, hk, touched_of_written hw⟩))
    rw [read_serve_unwritten hmr hj' _ hkq, read_serve hm, read_serve hmq, read_serve_unwritten hm hj _ hkq,
      State.serve_config]
  · rw [read_serve_unwritten hmq hi' _ hk, read_serve hm, read_serve hmr, read_serve_unwritten hm hi _ hk,
      State.serve_config]

/-- Settles O21: each request is issued, admitted and answered after the other as before it, and no buffer is written by both. -/
theorem independentRequestsCommute : Obligations.IndependentRequestsCommute := by
  intro s u t r q hm hraces hnanr hnanq hu ht
  have hraces' : races q r = false := races_comm r q ▸ hraces
  obtain ⟨i, hi, hporti, hwfi, rfl⟩ := step_served_noNaN (s := { s with pending := [r, q] }) rfl hnanr hu
  have hq : issue (State.serve { s with pending := [r, q] } i r.dst [q]).mem q = issue s.mem q :=
    issue_serve (s := { s with pending := [r, q] }) hm hi hraces [q]
  obtain ⟨j, hj, hportj, hwfj, rfl⟩ := step_served_noNaN (State.serve_pending _ _ _ _) (fun j h => hnanq j (hq ▸ h)) ht
  rw [hq] at hj
  have hr : issue (State.serve { s with pending := [q, r] } j q.dst [r]).mem r = .ok i :=
    (issue_serve (s := { s with pending := [q, r] }) hm hj hraces' [r]).trans hi
  rw [State.serve_config] at hportj
  refine ⟨_, _, answerOf s.config 0 i, answerOf s.config 0 j,
    step_serves_noNaN (s := { s with pending := [q, r] }) rfl hj (hasRace_pair hraces') hportj hwfj (hnanq j hj),
    step_serves_noNaN (State.serve_pending _ _ _ _) hr (hasRace_single r) (by simpa using hporti) hwfi (hnanr i hi),
    ?_, by simp, by simp, by simp, by simp⟩
  exact (serve_mem_comm hm hi hj hraces [q] [] [r] []).symm

end Sys2Proof.Machine
end
